-- ==== Sys2Proof/Word.lean ====
section
/-! DEFINITION. The widths of the spec: 00_scope.md rules R11 and R14, 10_state.md rule R20. -/

namespace Sys2Proof

/-- A byte of storage: 8 bits (00_scope.md rule R14). -/
abbrev Byte := BitVec 8

/-- A word: 32 bits, the length of every instruction (R14, 30_encoding.md rule R60). -/
abbrev Word := BitVec 32

/-- A doubleword: 64 bits, the width XLEN of a general register, of `EA` and of `pc` (R6, R11, R14). -/
abbrev Dword := BitVec 64

/-- A general register's number, 0 to 31 (10_state.md rule R20). -/
abbrev RegNum := Fin 32

/-- The shift selector SH, 0 to 3 (00_scope.md rules R6 and R11); the shift amount is `SH + 1`, a natural number. -/
abbrev ShSel := Fin 4

/-- One past the highest byte address: storage has 2^64 bytes (20_memory.md rule R40). -/
abbrev storageSize : Nat := 2 ^ 64

end Sys2Proof
end

