-- ==== Sys2Proof/Machine/Bytes.lean ====
section
/-! DEFINITION. The bytes of a value and their order in storage: 00_scope.md rule R10, 20_memory.md rules R41 and R44. -/

namespace Sys2Proof.Machine

/-- `v.bits[8*i+7 : 8*i]`: byte `i` of `v`, counted from the least significant (R10). -/
def byteAt {w : Nat} (v : BitVec w) (i : Nat) : Byte :=
  v.extractLsb' (8 * i) 8

/-- The bytes `MemWrite` lays at `addr`, `addr + 1`, ... for the n-byte value `v` (20_memory.md rule R41): the most
significant first when `BIG_ENDIAN`, the least significant first otherwise. -/
def storeBytes (bigEndian : Bool) (n : Nat) (v : BitVec (8 * n)) : List Byte :=
  (List.range n).map fun i => byteAt v (if bigEndian then n - 1 - i else i)

/-- The number whose bytes are listed least significant first. -/
def littleNat : List Byte → Nat
  | [] => 0
  | b :: bs => b.toNat + 256 * littleNat bs

/-- R41 read backwards (20_memory.md rule R44): the n-byte value of bytes given at ascending addresses. -/
def loadValue (bigEndian : Bool) (n : Nat) (bs : List Byte) : BitVec (8 * n) :=
  BitVec.ofNat (8 * n) (littleNat (if bigEndian then bs.reverse else bs))

end Sys2Proof.Machine
end

