-- ==== Sys2Proof/Config.lean ====
section
/-! DEFINITION. The parameters of 00_scope.md rule R6: the type that carries them, and the constants without a
body that stand for the OPEN ones at launch. -/

namespace Sys2Proof

/-- The eleven mnemonics, in the source's order (00_scope.md rule R2); each names its own open extended opcode. -/
inductive Mnemonic where
  | stbsx | stbsux | sthsx | sthsux | stwsx | stwsux | stdsx | stdsux | sthbrsx | stwbrsx | stdbrsx
  deriving DecidableEq, Repr

/-- All eleven, in the order of R2. -/
def Mnemonic.all : List Mnemonic :=
  [.stbsx, .stbsux, .sthsx, .sthsux, .stwsx, .stwsux, .stdsx, .stdsux, .sthbrsx, .stwbrsx, .stdbrsx]

/-- The four update forms: the instructions that write EA to RA (00_scope.md rule R14). -/
def Mnemonic.isUpdate : Mnemonic → Bool
  | .stbsux | .sthsux | .stwsux | .stdsux => true
  | .stbsx | .sthsx | .stwsx | .stdsx | .sthbrsx | .stwbrsx | .stdbrsx => false

/-- The eleven parameters `XO_<mnemonic>`, 8 bits each (30_encoding.md rule R66). -/
structure XoTable where
  stbsx : BitVec 8
  stbsux : BitVec 8
  sthsx : BitVec 8
  sthsux : BitVec 8
  stwsx : BitVec 8
  stwsux : BitVec 8
  stdsx : BitVec 8
  stdsux : BitVec 8
  sthbrsx : BitVec 8
  stwbrsx : BitVec 8
  stdbrsx : BitVec 8
  deriving DecidableEq, Repr, Inhabited

/-- `XO_m` (R66). -/
def XoTable.get (t : XoTable) : Mnemonic → BitVec 8
  | .stbsx => t.stbsx
  | .stbsux => t.stbsux
  | .sthsx => t.sthsx
  | .sthsux => t.sthsux
  | .stwsx => t.stwsx
  | .stwsux => t.stwsux
  | .stdsx => t.stdsx
  | .stdsux => t.stdsux
  | .sthbrsx => t.sthbrsx
  | .stwbrsx => t.stwbrsx
  | .stdbrsx => t.stdbrsx

/-- R66's constraint: the eleven extended opcodes are pairwise distinct. -/
abbrev XoTable.Distinct (t : XoTable) : Prop :=
  (Mnemonic.all.map t.get).Nodup

/-- What a store to an address that is not a multiple of its size does (R6, 20_memory.md rule R45). -/
inductive Misalign where
  | perform | fault | refuse
  deriving DecidableEq, Repr

/-- One range of `Admit` as plain data: stores of `size` bytes are admitted at every address from `first` to `last`.
DESIGN CHOICE (log entry 5): a predicate cannot be a field of State; every predicate on the 2^64 addresses and the
four sizes is some list of these (`admit_any_predicate` in Laws). -/
structure AdmitRange where
  size : Nat
  first : Nat
  last : Nat
  deriving DecidableEq, Repr

/-- The run-wide parameters of R6 (10_state.md rule R28); no step changes one. -/
structure Params where
  /-- `BIG_ENDIAN` (20_memory.md rule R42). -/
  bigEndian : Bool
  /-- `MISALIGN` (20_memory.md rule R45). -/
  misalign : Misalign
  /-- `Admit` (20_memory.md rule R48). -/
  admitted : List AdmitRange
  /-- `TEXT_BASE` (70_reset_and_hazards.md rule R120). -/
  textBase : Dword
  /-- `TEXT` (70_reset_and_hazards.md rule R120). -/
  text : List Word
  /-- The eleven `XO_<mnemonic>` (30_encoding.md rule R66). -/
  xo : XoTable
  /-- How many agents the configuration has beside the one hardware thread (60_exceptions.md rule R114). -/
  otherAgents : Nat
  deriving DecidableEq, Repr

/-- OPEN (R6, 92_eei_decisions.md D9): the byte order of the launched machine. -/
opaque Config.bigEndian : Bool

/-- OPEN (R6, D12): the storage operands the platform of the launched machine accepts. -/
opaque Config.admitted : List AdmitRange

/-- OPEN (R6, D6, D27): where the text of the launched machine stands, before R121's limits. -/
opaque Config.textBaseSupplied : Dword

/-- OPEN (R6, D18): the extended opcodes supplied from outside the spec, before R66's limit. -/
opaque Config.xoSupplied : XoTable

/-- The supplied base kept within 70_reset_and_hazards.md rule R121: a multiple of 4 (`TextAligned`) that leaves room
for a text of at least one word (`TextFits`). DESIGN CHOICE, log entry 4. -/
def Config.textBase : Dword :=
  let base := Config.textBaseSupplied &&& 0xFFFFFFFFFFFFFFFC#64
  if base = 0xFFFFFFFFFFFFFFFC#64 then 0#64 else base

/-- The supplied opcodes kept within R66: pairwise distinct. The second table only fills the case that R66 excludes;
no proof can tell which case holds. DESIGN CHOICE, log entry 4. -/
def Config.xo : XoTable :=
  if Config.xoSupplied.Distinct then Config.xoSupplied else ⟨0, 1, 2, 3, 4, 5, 6, 7, 8, 9, 10⟩

/-- The parameters of the launched machine: `MISALIGN = perform` is R6's value, no text is loaded (DESIGN CHOICE, log
entry 6), and there is one agent (R114). -/
def Config.params : Params where
  bigEndian := Config.bigEndian
  misalign := .perform
  admitted := Config.admitted
  textBase := Config.textBase
  text := []
  xo := Config.xo
  otherAgents := 0

end Sys2Proof
end

