-- ==== Sys2Proof/Syntax.lean ====
section
/-! DEFINITION. The instructions: one constructor per row of spec/opcode_table.json, in the table's order
(00_scope.md rule R2), each with the operands `RS,RA,RB,SH`. -/

namespace Sys2Proof

/-- The eleven X-Form stores; operands are the values of the fields RS, RA, RB and SH (30_encoding.md rule R62). -/
inductive Instr where
  /-- Store Byte Shifted Indexed (R82). -/
  | stbsx (rs ra rb : RegNum) (sh : ShSel)
  /-- Store Byte Shifted with Update Indexed (R83). -/
  | stbsux (rs ra rb : RegNum) (sh : ShSel)
  /-- Store Halfword Shifted Indexed (R84). -/
  | sthsx (rs ra rb : RegNum) (sh : ShSel)
  /-- Store Halfword Shifted with Update Indexed (R85). -/
  | sthsux (rs ra rb : RegNum) (sh : ShSel)
  /-- Store Word Shifted Indexed (R86). -/
  | stwsx (rs ra rb : RegNum) (sh : ShSel)
  /-- Store Word Shifted with Update Indexed (R87). -/
  | stwsux (rs ra rb : RegNum) (sh : ShSel)
  /-- Store Doubleword Shifted Indexed (R90). -/
  | stdsx (rs ra rb : RegNum) (sh : ShSel)
  /-- Store Doubleword Shifted with Update Indexed (R91). -/
  | stdsux (rs ra rb : RegNum) (sh : ShSel)
  /-- Store Halfword Byte-Reverse Shifted Indexed (R96). -/
  | sthbrsx (rs ra rb : RegNum) (sh : ShSel)
  /-- Store Word Byte-Reverse Shifted Indexed (R97). -/
  | stwbrsx (rs ra rb : RegNum) (sh : ShSel)
  /-- Store Doubleword Byte-Reverse Shifted Indexed (R98). -/
  | stdbrsx (rs ra rb : RegNum) (sh : ShSel)
  deriving DecidableEq, Repr

/-- The mnemonic of an instruction (00_scope.md rule R2). -/
def Instr.mnemonic : Instr → Mnemonic
  | .stbsx .. => .stbsx
  | .stbsux .. => .stbsux
  | .sthsx .. => .sthsx
  | .sthsux .. => .sthsux
  | .stwsx .. => .stwsx
  | .stwsux .. => .stwsux
  | .stdsx .. => .stdsx
  | .stdsux .. => .stdsux
  | .sthbrsx .. => .sthbrsx
  | .stwbrsx .. => .stwbrsx
  | .stdbrsx .. => .stdbrsx

/-- The number in field RS, the source register (R12). -/
def Instr.rs : Instr → RegNum
  | .stbsx rs _ _ _ | .stbsux rs _ _ _ | .sthsx rs _ _ _ | .sthsux rs _ _ _ | .stwsx rs _ _ _ | .stwsux rs _ _ _
  | .stdsx rs _ _ _ | .stdsux rs _ _ _ | .sthbrsx rs _ _ _ | .stwbrsx rs _ _ _ | .stdbrsx rs _ _ _ => rs

/-- The number in field RA, the base register (R12). -/
def Instr.ra : Instr → RegNum
  | .stbsx _ ra _ _ | .stbsux _ ra _ _ | .sthsx _ ra _ _ | .sthsux _ ra _ _ | .stwsx _ ra _ _ | .stwsux _ ra _ _
  | .stdsx _ ra _ _ | .stdsux _ ra _ _ | .sthbrsx _ ra _ _ | .stwbrsx _ ra _ _ | .stdbrsx _ ra _ _ => ra

/-- The number in field RB, the index register (R12). -/
def Instr.rb : Instr → RegNum
  | .stbsx _ _ rb _ | .stbsux _ _ rb _ | .sthsx _ _ rb _ | .sthsux _ _ rb _ | .stwsx _ _ rb _ | .stwsux _ _ rb _
  | .stdsx _ _ rb _ | .stdsux _ _ rb _ | .sthbrsx _ _ rb _ | .stwbrsx _ _ rb _ | .stdbrsx _ _ rb _ => rb

/-- The value of field SH, the shift selector (R12). -/
def Instr.sh : Instr → ShSel
  | .stbsx _ _ _ sh | .stbsux _ _ _ sh | .sthsx _ _ _ sh | .sthsux _ _ _ sh | .stwsx _ _ _ sh | .stwsux _ _ _ sh
  | .stdsx _ _ _ sh | .stdsux _ _ _ sh | .sthbrsx _ _ _ sh | .stwbrsx _ _ _ sh | .stdbrsx _ _ _ sh => sh

end Sys2Proof
end

