-- ==== Sys2Proof/WellFormed.lean ====
section
/-! DEFINITION. Which instructions are valid forms. The types of the operands already bound the register numbers and
SH; one check is left. -/

namespace Sys2Proof

/-- 30_encoding.md rule R69: the one class of invalid forms is RA = 0 in an update form. RS = RA, RA = RB, RS = RB and
register number 0 in RS or RB are all valid. -/
abbrev Instr.WellFormed (i : Instr) : Prop :=
  ¬ (i.mnemonic.isUpdate = true ∧ i.ra = 0)

end Sys2Proof
end

