-- ==== Sys2Proof/Decode.lean ====
section
/-! DEFINITION. Binary words and instructions: the X-Form's fields (30_encoding.md rules R61 and R62), the decoding
procedure of rule R68, the encoder of rule R61, and the assembler line of rule R73. -/

namespace Sys2Proof

/-- The primary opcode `PO_STSHIFT` of all eleven instructions (30_encoding.md rule R65). -/
def poStshift : BitVec 6 := 31#6

/-- Why a word is no valid instruction (R68). -/
inductive Reject where
  /-- The primary or the extended opcode is none of the group's (R70). -/
  | notInScope
  /-- Bit 31 is 1 in a word that otherwise matches (R67). -/
  | reservedBitSet
  /-- RA = 0 in an update form (R69). -/
  | invalidForm
  deriving DecidableEq, Repr

/-- What decoding a word gives. -/
inductive Decoded where
  | instr (i : Instr)
  | reject (r : Reject)
  deriving DecidableEq, Repr

/-- `PO = word.bits[31:26]` (R62). -/
def fieldPO (w : Word) : BitVec 6 := w.extractLsb' 26 6
/-- `RS = word.bits[25:21]` (R62). -/
def fieldRS (w : Word) : BitVec 5 := w.extractLsb' 21 5
/-- `RA = word.bits[20:16]` (R62). -/
def fieldRA (w : Word) : BitVec 5 := w.extractLsb' 16 5
/-- `RB = word.bits[15:11]` (R62). -/
def fieldRB (w : Word) : BitVec 5 := w.extractLsb' 11 5
/-- `SH = word.bits[10:9]` (R62). -/
def fieldSH (w : Word) : BitVec 2 := w.extractLsb' 9 2
/-- `XO = word.bits[8:1]` (R62). -/
def fieldXO (w : Word) : BitVec 8 := w.extractLsb' 1 8
/-- `R31 = word.bits[0:0]`, the reserved bit (R62, R67). -/
def fieldR31 (w : Word) : BitVec 1 := w.extractLsb' 0 1

/-- The register number in a 5-bit field, unsigned (R62). -/
def regOfBits (b : BitVec 5) : RegNum := ⟨b.toNat, b.isLt⟩
/-- The shift selector in the 2-bit field SH, unsigned (R62). -/
def shOfBits (b : BitVec 2) : ShSel := ⟨b.toNat, b.isLt⟩
/-- The 5-bit field of a register number (R61). -/
def regBits (r : RegNum) : BitVec 5 := BitVec.ofNat 5 r.val
/-- The 2-bit field SH (R61). -/
def shBits (sh : ShSel) : BitVec 2 := BitVec.ofNat 2 sh.val

/-- The mnemonic `m` with `XO_m = x`, if there is one (R68). -/
def xoLookup (t : XoTable) (x : BitVec 8) : Option Mnemonic :=
  Mnemonic.all.find? fun m => t.get m == x

/-- The instruction of a mnemonic and its four operands. -/
def instrOf (m : Mnemonic) (rs ra rb : RegNum) (sh : ShSel) : Instr :=
  match m with
  | .stbsx => .stbsx rs ra rb sh
  | .stbsux => .stbsux rs ra rb sh
  | .sthsx => .sthsx rs ra rb sh
  | .sthsux => .sthsux rs ra rb sh
  | .stwsx => .stwsx rs ra rb sh
  | .stwsux => .stwsux rs ra rb sh
  | .stdsx => .stdsx rs ra rb sh
  | .stdsux => .stdsux rs ra rb sh
  | .sthbrsx => .sthbrsx rs ra rb sh
  | .stwbrsx => .stwbrsx rs ra rb sh
  | .stdbrsx => .stdbrsx rs ra rb sh

/-- The decoding procedure, its tests in the order of 30_encoding.md rule R68. -/
def decode (t : XoTable) (w : Word) : Decoded :=
  if fieldPO w ≠ poStshift then .reject .notInScope
  else match xoLookup t (fieldXO w) with
    | none => .reject .notInScope
    | some m =>
      if fieldR31 w = 1#1 then .reject .reservedBitSet
      else if m.isUpdate = true ∧ regOfBits (fieldRA w) = 0 then .reject .invalidForm
      else .instr (instrOf m (regOfBits (fieldRS w)) (regOfBits (fieldRA w)) (regOfBits (fieldRB w))
        (shOfBits (fieldSH w)))

/-- `PO << 26 | RS << 21 | RA << 16 | RB << 11 | SH << 9 | XO << 1 | R31`, the X-Form of 30_encoding.md rule R61. -/
def xForm (po : BitVec 6) (rs ra rb : BitVec 5) (sh : BitVec 2) (xo : BitVec 8) (r31 : BitVec 1) : Word :=
  po.setWidth 32 <<< 26 ||| rs.setWidth 32 <<< 21 ||| ra.setWidth 32 <<< 16 ||| rb.setWidth 32 <<< 11 |||
    sh.setWidth 32 <<< 9 ||| xo.setWidth 32 <<< 1 ||| r31.setWidth 32

/-- The word of an instruction (R61), bit 31 being 0 (R67). -/
def encode (t : XoTable) (i : Instr) : Word :=
  xForm poStshift (regBits i.rs) (regBits i.ra) (regBits i.rb) (shBits i.sh) (t.get i.mnemonic) 0#1

/-- `match = 31 << 26 | XO_<mnemonic> << 1` (30_encoding.md rule R68). -/
def matchWord (t : XoTable) (m : Mnemonic) : Word :=
  poStshift.setWidth 32 <<< 26 ||| (t.get m).setWidth 32 <<< 1

/-- The mnemonic as the assembler line spells it (30_encoding.md rule R73). -/
def mnemonicText : Mnemonic → String
  | .stbsx => "stbsx"
  | .stbsux => "stbsux"
  | .sthsx => "sthsx"
  | .sthsux => "sthsux"
  | .stwsx => "stwsx"
  | .stwsux => "stwsux"
  | .stdsx => "stdsx"
  | .stdsux => "stdsux"
  | .sthbrsx => "sthbrsx"
  | .stwbrsx => "stwbrsx"
  | .stdbrsx => "stdbrsx"

/-- The assembler line `<mnemonic> RS,RA,RB,SH`, registers and SH written as plain numbers (30_encoding.md rule R73). -/
def assemblerLine (i : Instr) : String :=
  mnemonicText i.mnemonic ++ " " ++ toString i.rs.val ++ "," ++ toString i.ra.val ++ "," ++ toString i.rb.val ++ "," ++
    toString i.sh.val

/-- The host's question: the instruction the decoder reads from a word whose bits are `w`. The word's `nbits` bits are
laid out in storage in the launched machine's byte order and read back as `MemRead` reads them (R44, R60). -/
def decodeTableWord (nbits w : Nat) : Option Instr :=
  let word : Word := BitVec.ofNat 32 (w % 2 ^ nbits)
  let fetched : Word := Machine.loadValue Config.bigEndian 4 (Machine.storeBytes Config.bigEndian 4 word)
  match decode Config.xo fetched with
  | .instr i => some i
  | .reject _ => none

end Sys2Proof
end

