-- ==== Sys2Proof/Machine/State.lean ====
section
/-! DEFINITION. The machine's state as plain data, the reasons a step can stop, and the state at launch:
10_state.md, 60_exceptions.md rule R100, 70_reset_and_hazards.md rule R120. -/

namespace Sys2Proof.Machine

/-- The faults of 60_exceptions.md rule R100, each with the info it records. Every one is SAFE: it stops where a
processor would go on in an interrupt handler, which the spec says a model must not implement (R108). -/
inductive Fault where
  /-- F1. Raised by the four update forms when the RA field is 0: at decode by `step`, and by the meaning itself (R69,
  R101). Safe. -/
  | invalidForm (word : Word) (pc : Dword)
  /-- F2. Raised by any of the eleven when `Admit(EA, n)` is false (R102). Safe. -/
  | storageFault (ea : Dword) (n : Nat) (pc : Dword)
  /-- F3. Raised by the halfword, word and doubleword stores when EA is no multiple of n and `MISALIGN = fault`
  (R103). Safe. -/
  | alignmentFault (ea : Dword) (n : Nat) (pc : Dword)
  deriving DecidableEq, Repr

/-- The refusals of 60_exceptions.md rule R100, each with the info it records, and three that belong to the model's
interface. Every one is SAFE: it stops and claims nothing. -/
inductive Refusal where
  /-- The host's refusal of an instruction without a meaning. No arm of `exec` answers it. Safe. -/
  | notModelled (mnemonic : String)
  /-- X1. Raised by `step` when the word at `pc` is none of the eleven (30_encoding.md rule R70). Safe. -/
  | notInScope (word : Word) (pc : Dword)
  /-- X2. Raised by `step` when bit 31 of a matching word is 1 (30_encoding.md rule R67). Safe. -/
  | reservedBitSet (word : Word) (pc : Dword)
  /-- X3. Raised by `step` when `pc` is at the top of the address space (10_state.md rule R26; `addr` is `pc`) and by
  every store whose operand runs past it (20_memory.md rule R49; `addr` is EA). Safe. -/
  | addressWrap (addr : Dword) (pc : Dword)
  /-- X4. Raised by every store whose operand overlaps the program text (20_memory.md rule R55). Safe. -/
  | textOverwritten (ea : Dword) (n : Nat) (pc : Dword)
  /-- X5. Raised by the halfword, word and doubleword stores when EA is no multiple of n and `MISALIGN = refuse`
  (20_memory.md rule R45). Safe. -/
  | misalignedRefused (ea : Dword) (n : Nat) (pc : Dword)
  /-- Raised by `step` in a run that has exited: only `Running` has a next step (10_state.md rule R32). Safe. -/
  | runEnded (pc : Dword)
  /-- Raised by `step` in a configuration with another agent (60_exceptions.md rule R114). Safe. -/
  | secondAgent (pc : Dword)
  deriving DecidableEq, Repr

/-- The outcome of a run (10_state.md rule R32); the kind, the reason, the `pc` and the info stand inside the fault or
refusal. -/
inductive RunOutcome where
  | running
  | exited
  | faulted (f : Fault)
  | refused (r : Refusal)
  deriving DecidableEq, Repr

/-- Storage as (address, byte) pairs in one canonical form (`Memory.wf` in Ops.lean): addresses strictly rising and
below 2^64, no entry equal to what an unlisted address reads as. It stands for the total map `Mem` of
10_state.md rule R29. -/
abbrev Memory := List Host.Cell

/-- The state of the machine (10_state.md rules R20, R24, R29, R32). `params` carries the run-wide parameters of
00_scope.md rule R6, which no step changes: log entry 3. -/
structure State where
  /-- `GPR[0]` to `GPR[31]` (R20). -/
  gpr : Vector Dword 32
  /-- The program counter (R24). -/
  pc : Dword
  /-- `Mem` (R29). -/
  mem : Memory
  /-- The run's outcome (R32). -/
  outcome : RunOutcome
  /-- The parameters, fixed for the run (R6, R28). -/
  params : Params
  deriving DecidableEq, Repr

/-- The launch state with nothing loaded: `pc` is `TEXT_BASE` and the outcome `Running` (70_reset_and_hazards.md rule
R120). The spec leaves registers and storage open: every register is 0 (DESIGN CHOICE, log entry 1) and no byte is
listed (DESIGN CHOICE, log entry 2). -/
def State.reset : State where
  gpr := Vector.replicate 32 0#64
  pc := Config.params.textBase
  mem := []
  outcome := .running
  params := Config.params

end Sys2Proof.Machine
end

