-- ==== Sys2Proof/Machine/Ops.lean ====
section
/-! DEFINITION. The named operations over registers, storage and the run: reads and writes of a register, the canonical
memory, `MemWrite` with its checks (20_memory.md rule R41), `MemRead` (R44), launching, fetching and recording a
stop. Taking an exception is `Host.Outcome.fault` with the spec's info and nothing more: 60_exceptions.md rule R108
gives no trap entry, and R110 no return from one. -/

namespace Sys2Proof.Machine

/-! ## Registers and the program counter -/

/-- `GPR[r]` (10_state.md rules R20, R21, R23): no register is hardwired and a read never faults. -/
def State.readGpr (s : State) (r : RegNum) : Dword := s.gpr[r]

/-- `GPR[r] <- v` (R20, R21). -/
def State.writeGpr (s : State) (r : RegNum) (v : Dword) : State :=
  { s with gpr := s.gpr.set r.val v r.isLt }

/-- `pc <- pc + 4`, the last effect of every instruction that completes (10_state.md rule R25). -/
def State.advancePc (s : State) : State := { s with pc := s.pc + 4#64 }

/-- The same state with other contents of storage. -/
def State.withMem (s : State) (m : Memory) : State := { s with mem := m }

/-- The same state with another outcome of the run. -/
def State.withOutcome (s : State) (o : RunOutcome) : State := { s with outcome := o }

/-! ## Storage -/

/-- What an unlisted address reads as (DESIGN CHOICE, log entry 2). -/
def unlistedByte : Byte := 0#8

/-- `Mem[a]` (10_state.md rule R29). -/
def Memory.read (m : Memory) (a : Nat) : Byte :=
  match m with
  | [] => unlistedByte
  | (k, b) :: rest => if k = a then b else Memory.read rest a

/-- The entry for `a`, unless it says what an unlisted address says. -/
def Memory.entry (a : Nat) (b : Byte) (m : Memory) : Memory :=
  if b = unlistedByte then m else (a, b) :: m

/-- `Mem[a] <- b`, keeping the canonical form. -/
def Memory.write (m : Memory) (a : Nat) (b : Byte) : Memory :=
  match m with
  | [] => Memory.entry a b []
  | (k, c) :: rest =>
    if a < k then Memory.entry a b ((k, c) :: rest)
    else if a = k then Memory.entry a b rest
    else (k, c) :: Memory.write rest a b

/-- The bytes `bs` at `a`, `a + 1`, ... -/
def Memory.writeBytes (m : Memory) (a : Nat) (bs : List Byte) : Memory :=
  match bs with
  | [] => m
  | b :: rest => Memory.writeBytes (Memory.write m a b) (a + 1) rest

/-- The bytes at `a`, ..., `a + n - 1`. -/
def Memory.readBytes (m : Memory) (a n : Nat) : List Byte :=
  (List.range n).map fun i => Memory.read m (a + i)

/-- The canonical form from address `low` on. -/
def Memory.wfFrom (low : Nat) (m : Memory) : Bool :=
  match m with
  | [] => true
  | (k, b) :: rest => decide (low ≤ k ∧ k < storageSize ∧ b ≠ unlistedByte) && Memory.wfFrom (k + 1) rest

/-- The canonical form: addresses strictly rising and below 2^64, no entry equal to `unlistedByte`. -/
def Memory.wf (m : Memory) : Bool := Memory.wfFrom 0 m

/-- `MemRead(addr, n)` (20_memory.md rule R44). -/
def memRead (s : State) (addr n : Nat) : BitVec (8 * n) :=
  loadValue s.params.bigEndian n (s.mem.readBytes addr n)

/-! ## MemWrite -/

/-- `Admit(addr, n)` (20_memory.md rule R48). -/
def admits (p : Params) (addr : Dword) (n : Nat) : Bool :=
  p.admitted.any fun r => decide (r.size = n ∧ r.first ≤ addr.toNat ∧ addr.toNat ≤ r.last)

/-- The address just past the program text, `TEXT_BASE + 4*len(TEXT)`, as a natural number (70_reset_and_hazards.md
rule R123). -/
def textEnd (p : Params) : Nat := p.textBase.toNat + 4 * p.text.length

/-- `[addr, addr+n)` meets `[TEXT_BASE, TEXT_BASE + 4*len(TEXT))`: some address lies in both (20_memory.md rules R41
and R55). -/
def meetsText (p : Params) (addr : Dword) (n : Nat) : Bool :=
  decide (max addr.toNat p.textBase.toNat < min (addr.toNat + n) (textEnd p))

/-- The checks of `MemWrite(addr, n, v)`, in the order of 20_memory.md rule R41 (60_exceptions.md rule R105, items 7 to
10). -/
def storeCheck (s : State) (addr : Dword) (n : Nat) : Host.Outcome Unit Fault Refusal :=
  if storageSize < addr.toNat + n then .refused (.addressWrap addr s.pc)
  else if addr.toNat % n ≠ 0 ∧ s.params.misalign = .fault then .fault (.alignmentFault addr n s.pc)
  else if addr.toNat % n ≠ 0 ∧ s.params.misalign = .refuse then .refused (.misalignedRefused addr n s.pc)
  else if admits s.params addr n = false then .fault (.storageFault addr n s.pc)
  else if meetsText s.params addr n = true then .refused (.textOverwritten addr n s.pc)
  else .next ()

/-- One outcome after another: a stop ends the instruction and nothing later happens (60_exceptions.md rule R107). -/
def andThen {α β : Type} (o : Host.Outcome α Fault Refusal) (k : α → Host.Outcome β Fault Refusal) :
    Host.Outcome β Fault Refusal :=
  match o with
  | .next a => k a
  | .fault f => .fault f
  | .refused r => .refused r

/-- `MemWrite(addr, n, v)` (20_memory.md rule R41): the checks, then all n bytes in the byte order of the run. -/
def memWrite (s : State) (addr : Dword) (n : Nat) (v : BitVec (8 * n)) : Host.Outcome State Fault Refusal :=
  andThen (storeCheck s addr n) fun _ =>
    .next (s.withMem (s.mem.writeBytes addr.toNat (storeBytes s.params.bigEndian n v)))

/-! ## Fetch, stops, and the end of a run -/

/-- `MemRead(pc, 4)`: the instruction word at `pc` (30_encoding.md rule R60). -/
def fetchWord (s : State) : Word := memRead s s.pc.toNat 4

/-- `pc = TEXT_BASE + 4*len(TEXT)` (70_reset_and_hazards.md rule R123). -/
def atTextEnd (s : State) : Bool := decide (s.pc.toNat = textEnd s.params)

/-- 10_state.md rule R26: `pc = 2^64 - 4`, the last multiple of 4. Written as "the word at `pc` would reach the top", so
that a `pc` that is no multiple of 4, which no run reaches, is refused there too (DESIGN CHOICE, log entry 9). -/
def pcAtTop (s : State) : Bool := decide (storageSize ≤ s.pc.toNat + 4)

/-- What a step answers for a word the decoder rejects (30_encoding.md rule R68, 60_exceptions.md rule R100). -/
def rejectOutcome (r : Reject) (w : Word) (pc : Dword) : Host.Outcome State Fault Refusal :=
  match r with
  | .notInScope => .refused (.notInScope w pc)
  | .reservedBitSet => .refused (.reservedBitSet w pc)
  | .invalidForm => .fault (.invalidForm w pc)

/-- The state with a step's answer recorded as the outcome of the run: a stop leaves registers, `pc` and `Mem` as they
were (10_state.md rule R32, 60_exceptions.md rule R107). -/
def record (s : State) (o : Host.Outcome State Fault Refusal) : State :=
  match o with
  | .next t => t
  | .fault f => s.withOutcome (.faulted f)
  | .refused r => s.withOutcome (.refused r)

/-- The model's code of a fault (60_exceptions.md rule R100, first column). -/
def faultCode : Fault → String
  | .invalidForm .. => "F1"
  | .storageFault .. => "F2"
  | .alignmentFault .. => "F3"

/-- The model's code of a refusal (60_exceptions.md rule R100, first column); the interface's own three have none. -/
def refusalCode : Refusal → Option String
  | .notInScope .. => some "X1"
  | .reservedBitSet .. => some "X2"
  | .addressWrap .. => some "X3"
  | .textOverwritten .. => some "X4"
  | .misalignedRefused .. => some "X5"
  | _ => none

/-! ## Launch -/

/-- The words of a text as the bytes they are in storage (70_reset_and_hazards.md rule R120). -/
def textBytes (bigEndian : Bool) (text : List Word) : List Byte :=
  text.flatMap fun w => storeBytes bigEndian 4 w

/-- A launch state (70_reset_and_hazards.md rule R120): any registers, any storage except that `TEXT` stands at
`TEXT_BASE` in the byte order of the run, `pc = TEXT_BASE`, outcome `Running`. -/
def launch (p : Params) (gpr : Vector Dword 32) (mem : Memory) : State where
  gpr := gpr
  pc := p.textBase
  mem := mem.writeBytes p.textBase.toNat (textBytes p.bigEndian p.text)
  outcome := .running
  params := p

/-- The text with the word at `pc` replaced, or appended where `pc` is the end of the text; a `pc` elsewhere is outside
the text and leaves it alone. -/
def textWithWord (p : Params) (pc : Dword) (w : Word) : List Word :=
  if p.textBase.toNat ≤ pc.toNat ∧ (pc.toNat - p.textBase.toNat) % 4 = 0 ∧ pc.toNat ≤ textEnd p then
    p.text.take ((pc.toNat - p.textBase.toNat) / 4) ++ w :: p.text.drop ((pc.toNat - p.textBase.toNat) / 4 + 1)
  else p.text

/-- The loading of one instruction word at `pc`: its bytes into storage in the byte order of the run, and into `TEXT`,
so that `pc` is not the end of the text (R120, R123; log entry 6). The run is `Running`. -/
def placeWord (s : State) (w : Word) : State :=
  { s with
    mem := s.mem.writeBytes s.pc.toNat (storeBytes s.params.bigEndian 4 w)
    params := { s.params with text := textWithWord s.params s.pc w }
    outcome := .running }

end Sys2Proof.Machine
end

