-- ==== Sys2Proof/Machine/Operands.lean ====
section
/-! DEFINITION. The operand forms: `(RA|0)` and `(RA)`, the shifted index, the two effective addresses
(40_store_shifted.md rules R80 and R81), the values stored (20_memory.md rule R43, 42_store_byte_reverse_shifted.md rule
R95), and the two shapes of a store, without and with update. -/

namespace Sys2Proof.Machine

/-- `shl64(x, n)` = `(x * 2^n) mod 2^64` (00_scope.md rule R10). -/
def shl64 (x : Dword) (n : Nat) : Dword := x <<< n

/-- `(RA|0)`: 0 if the RA field is 0, and then `GPR[0]` is not read (00_scope.md rule R8, 10_state.md rule R21). -/
def baseOrZero (s : State) (ra : RegNum) : Dword :=
  if ra = 0 then 0#64 else s.readGpr ra

/-- The scaled index `shl64(GPR[RB], SH + 1)`; `SH + 1` is a natural number and does not wrap (00_scope.md rule R11). -/
def scaledIndex (s : State) (rb : RegNum) (sh : ShSel) : Dword :=
  shl64 (s.readGpr rb) (sh.val + 1)

/-- EA of a form without update (40_store_shifted.md rule R80); the shift applies to the index alone (R9, C1). -/
def eaIndexed (s : State) (ra rb : RegNum) (sh : ShSel) : Dword :=
  baseOrZero s ra + scaledIndex s rb sh

/-- EA of a form with update (40_store_shifted.md rule R81); the base is `GPR[RA]` (C2) and the index is shifted (C3). -/
def eaUpdate (s : State) (ra rb : RegNum) (sh : ShSel) : Dword :=
  s.readGpr ra + scaledIndex s rb sh

/-- `v.bits[8n-1:0]`, what a plain store of n bytes stores; the bits above are ignored (20_memory.md rule R43). -/
def lowBytes (n : Nat) (v : Dword) : BitVec (8 * n) := v.setWidth (8 * n)

/-- `v.bits[7:0] ++ v.bits[15:8]` (42_store_byte_reverse_shifted.md rule R96). -/
def reverseHalf (v : Dword) : BitVec (8 * 2) := byteAt v 0 ++ byteAt v 1

/-- `v.bits[7:0] ++ v.bits[15:8] ++ v.bits[23:16] ++ v.bits[31:24]` (rule R97). -/
def reverseWord (v : Dword) : BitVec (8 * 4) := byteAt v 0 ++ byteAt v 1 ++ byteAt v 2 ++ byteAt v 3

/-- All eight bytes in reverse order (rule R98, 90_conflicts.md C4). -/
def reverseDword (v : Dword) : BitVec (8 * 8) :=
  byteAt v 0 ++ byteAt v 1 ++ byteAt v 2 ++ byteAt v 3 ++ byteAt v 4 ++ byteAt v 5 ++ byteAt v 6 ++ byteAt v 7

/-- A store without update: `MemWrite(EA, n, v)`, then `pc <- pc + 4` (R80, R25). -/
def storeIndexed (s : State) (ea : Dword) (n : Nat) (v : BitVec (8 * n)) : Host.Outcome State Fault Refusal :=
  andThen (memWrite s ea n v) fun t => .next t.advancePc

/-- A store with update (R81): the invalid form RA = 0 faults first and records the word; then `MemWrite(EA, n, v)`, then
`GPR[RA] <- EA` only if the store completed, then `pc <- pc + 4`. -/
def storeUpdate (s : State) (word : Word) (ra : RegNum) (ea : Dword) (n : Nat) (v : BitVec (8 * n)) :
    Host.Outcome State Fault Refusal :=
  if ra = 0 then .fault (.invalidForm word s.pc)
  else andThen (memWrite s ea n v) fun t => .next (t.writeGpr ra ea).advancePc

end Sys2Proof.Machine
end

