-- ==== Sys2Proof/Machine/StoreByteReverse.lean ====
section
/-! DEFINITION. Store halfword, word and doubleword byte-reverse, shifted indexed: 42_store_byte_reverse_shifted.md rules
R95 to R98 (with 90_conflicts.md C3: the index is shifted). -/

namespace Sys2Proof.Machine

/-- `sthbrsx` (R96). -/
def execSthbrsx (rs ra rb : RegNum) (sh : ShSel) (s : State) : Host.Outcome State Fault Refusal :=
  storeIndexed s (eaIndexed s ra rb sh) 2 (reverseHalf (s.readGpr rs))

/-- `stwbrsx` (R97). -/
def execStwbrsx (rs ra rb : RegNum) (sh : ShSel) (s : State) : Host.Outcome State Fault Refusal :=
  storeIndexed s (eaIndexed s ra rb sh) 4 (reverseWord (s.readGpr rs))

/-- `stdbrsx` (R98, with 90_conflicts.md C4). -/
def execStdbrsx (rs ra rb : RegNum) (sh : ShSel) (s : State) : Host.Outcome State Fault Refusal :=
  storeIndexed s (eaIndexed s ra rb sh) 8 (reverseDword (s.readGpr rs))

end Sys2Proof.Machine
end

