-- ==== Sys2Proof/Machine/StoreDoubleword.lean ====
section
/-! DEFINITION. Store doubleword, shifted indexed, without and with update: 41_store_doubleword_shifted.md rules R90 and
R91. -/

namespace Sys2Proof.Machine

/-- `stdsx` (R90). -/
def execStdsx (rs ra rb : RegNum) (sh : ShSel) (s : State) : Host.Outcome State Fault Refusal :=
  storeIndexed s (eaIndexed s ra rb sh) 8 (lowBytes 8 (s.readGpr rs))

/-- `stdsux` (R91, with 90_conflicts.md C3: the index is shifted). -/
def execStdsux (rs ra rb : RegNum) (sh : ShSel) (s : State) : Host.Outcome State Fault Refusal :=
  storeUpdate s (encode s.params.xo (.stdsux rs ra rb sh)) ra (eaUpdate s ra rb sh) 8 (lowBytes 8 (s.readGpr rs))

end Sys2Proof.Machine
end

