-- ==== Sys2Proof/Machine/StoreShifted.lean ====
section
/-! DEFINITION. Store byte, halfword and word, shifted indexed, without and with update: 40_store_shifted.md rules R82
to R87. -/

namespace Sys2Proof.Machine

/-- `stbsx` (R82). -/
def execStbsx (rs ra rb : RegNum) (sh : ShSel) (s : State) : Host.Outcome State Fault Refusal :=
  storeIndexed s (eaIndexed s ra rb sh) 1 (lowBytes 1 (s.readGpr rs))

/-- `stbsux` (R83). -/
def execStbsux (rs ra rb : RegNum) (sh : ShSel) (s : State) : Host.Outcome State Fault Refusal :=
  storeUpdate s (encode s.params.xo (.stbsux rs ra rb sh)) ra (eaUpdate s ra rb sh) 1 (lowBytes 1 (s.readGpr rs))

/-- `sthsx` (R84). -/
def execSthsx (rs ra rb : RegNum) (sh : ShSel) (s : State) : Host.Outcome State Fault Refusal :=
  storeIndexed s (eaIndexed s ra rb sh) 2 (lowBytes 2 (s.readGpr rs))

/-- `sthsux` (R85, with 90_conflicts.md C2: the base is (RA)). -/
def execSthsux (rs ra rb : RegNum) (sh : ShSel) (s : State) : Host.Outcome State Fault Refusal :=
  storeUpdate s (encode s.params.xo (.sthsux rs ra rb sh)) ra (eaUpdate s ra rb sh) 2 (lowBytes 2 (s.readGpr rs))

/-- `stwsx` (R86). -/
def execStwsx (rs ra rb : RegNum) (sh : ShSel) (s : State) : Host.Outcome State Fault Refusal :=
  storeIndexed s (eaIndexed s ra rb sh) 4 (lowBytes 4 (s.readGpr rs))

/-- `stwsux` (R87, with 90_conflicts.md C2: the base is (RA)). -/
def execStwsux (rs ra rb : RegNum) (sh : ShSel) (s : State) : Host.Outcome State Fault Refusal :=
  storeUpdate s (encode s.params.xo (.stwsux rs ra rb sh)) ra (eaUpdate s ra rb sh) 4 (lowBytes 4 (s.readGpr rs))

end Sys2Proof.Machine
end

