-- ==== Sys2Proof/Machine/Dispatch.lean ====
section
/-! DEFINITION. The meaning of an instruction: one arm per constructor of Instr. -/

namespace Sys2Proof.Machine

def exec (i : Instr) (s : State) : Host.Outcome State Fault Refusal :=
  match i with
  | .stbsx rs ra rb sh => Sys2Proof.Machine.execStbsx rs ra rb sh s
  | .stbsux rs ra rb sh => Sys2Proof.Machine.execStbsux rs ra rb sh s
  | .sthsx rs ra rb sh => Sys2Proof.Machine.execSthsx rs ra rb sh s
  | .sthsux rs ra rb sh => Sys2Proof.Machine.execSthsux rs ra rb sh s
  | .stwsx rs ra rb sh => Sys2Proof.Machine.execStwsx rs ra rb sh s
  | .stwsux rs ra rb sh => Sys2Proof.Machine.execStwsux rs ra rb sh s
  | .stdsx rs ra rb sh => Sys2Proof.Machine.execStdsx rs ra rb sh s
  | .stdsux rs ra rb sh => Sys2Proof.Machine.execStdsux rs ra rb sh s
  | .sthbrsx rs ra rb sh => Sys2Proof.Machine.execSthbrsx rs ra rb sh s
  | .stwbrsx rs ra rb sh => Sys2Proof.Machine.execStwbrsx rs ra rb sh s
  | .stdbrsx rs ra rb sh => Sys2Proof.Machine.execStdbrsx rs ra rb sh s

end Sys2Proof.Machine
end

