-- ==== Sys2Proof/Machine/Cycle.lean ====
section
/-! DEFINITION. One cycle of the machine: the order of checks of 60_exceptions.md rule R105. `step` is this and nothing
else; it stands here so that it can be mended. -/

namespace Sys2Proof.Machine

/-- Only `Running` has a next step (10_state.md rule R32), and only a single-agent configuration is run
(60_exceptions.md rule R114). Then R105: item 1 the end of the text, item 2 the top of the address space, items 3 to 5
fetch and decode, items 6 to 11 the instruction's own meaning. -/
def runCycle (s : State) : Host.Outcome State Fault Refusal :=
  match s.outcome with
  | .faulted f => .fault f
  | .refused r => .refused r
  | .exited => .refused (.runEnded s.pc)
  | .running =>
    if s.params.otherAgents ≠ 0 then .refused (.secondAgent s.pc)
    else if atTextEnd s = true then .next (s.withOutcome .exited)
    else if pcAtTop s = true then .refused (.addressWrap s.pc s.pc)
    else match decode s.params.xo (fetchWord s) with
      | .instr i => exec i s
      | .reject r => rejectOutcome r (fetchWord s) s.pc

end Sys2Proof.Machine
end

