-- ==== Sys2Proof/Machine/Step.lean ====
section
/-! DEFINITION. The step the host runs, and the loading of one instruction where it fetches. -/

namespace Sys2Proof.Machine

/-- One step (60_exceptions.md rules R100 and R105). -/
def step (s : State) : Host.Outcome State Fault Refusal := runCycle s

/-- `s` with the instruction word of the low `nbits` bits of `w` loaded where the next step fetches: at `pc`, in the byte
order of the run, and in the program text (log entry 6). -/
def State.withFetchWord (s : State) (nbits w : Nat) : State :=
  placeWord s (BitVec.ofNat 32 (w % 2 ^ nbits))

end Sys2Proof.Machine
end

