-- ==== Sys2Proof/Safety.lean ====
section
/-! DEFINITION. The terms claims are made in: the storage operand of an instruction, when its store is performed, the
launch premises, the run, and the invariant of the machine. -/

namespace Sys2Proof.Machine

/-! ## The storage operand -/

/-- n, the bytes an instruction stores (20_memory.md rule R43). -/
def operandSize : Mnemonic → Nat
  | .stbsx | .stbsux => 1
  | .sthsx | .sthsux | .sthbrsx => 2
  | .stwsx | .stwsux | .stwbrsx => 4
  | .stdsx | .stdsux | .stdbrsx => 8

/-- The three byte-reverse stores (42_store_byte_reverse_shifted.md rule R95). -/
def isByteReverse : Mnemonic → Bool
  | .sthbrsx | .stwbrsx | .stdbrsx => true
  | .stbsx | .stbsux | .sthsx | .sthsux | .stwsx | .stwsux | .stdsx | .stdsux => false

/-- EA of an instruction: 40_store_shifted.md rule R81 for the update forms, rule R80 for the others. -/
def operandAddress (i : Instr) (s : State) : Dword :=
  if i.mnemonic.isUpdate = true then eaUpdate s i.ra i.rb i.sh else eaIndexed s i.ra i.rb i.sh

/-- Byte `k` of the operand, at address EA + k, as a byte of the register RS read before the instruction: a plain store lays
the low n bytes out in the run's order, a byte-reverse store in the other one (20_memory.md rules R41 and R43,
42_store_byte_reverse_shifted.md rule R95). -/
def operandByte (i : Instr) (s : State) (k : Nat) : Byte :=
  byteAt (s.readGpr i.rs)
    (if s.params.bigEndian = isByteReverse i.mnemonic then k else operandSize i.mnemonic - 1 - k)

/-- `MemWrite(ea, n, v)` is performed: none of the stops of 20_memory.md rule R41 applies. -/
abbrev StoreOk (s : State) (ea : Dword) (n : Nat) : Prop :=
  ea.toNat + n ≤ storageSize ∧ (ea.toNat % n = 0 ∨ s.params.misalign = .perform) ∧
    admits s.params ea n = true ∧ meetsText s.params ea n = false

/-- The bytes of the operand `[ea, ea+n)` read as `byte 0`, `byte 1`, ... in `t`, and every other byte of storage reads in
`t` as in `s` (20_memory.md rule R57 (a)). -/
def WritesExactly (s t : State) (ea : Dword) (n : Nat) (byte : Nat → Byte) : Prop :=
  ∀ a : Nat, t.mem.read a =
    if ea.toNat ≤ a ∧ a < ea.toNat + n then byte (a - ea.toNat) else s.mem.read a

/-- Nothing but registers, `pc` and storage differs (10_state.md rule R27): the outcome and the parameters stay. -/
def SameRest (s t : State) : Prop := t.outcome = s.outcome ∧ t.params = s.params

/-- A store without update completes: exactly the operand's bytes change, no register changes, `pc` advances by 4. -/
def CompletesIndexed (i : Instr) (s : State) (ea : Dword) (n : Nat) (byte : Nat → Byte) : Prop :=
  ∃ t, exec i s = .next t ∧ WritesExactly s t ea n byte ∧ (∀ r, t.readGpr r = s.readGpr r) ∧
    t.pc = s.pc + 4#64 ∧ SameRest s t

/-- A store with update completes: exactly the operand's bytes change, `GPR[RA]` holds EA and no other register changes,
`pc` advances by 4. -/
def CompletesUpdate (i : Instr) (s : State) (ea : Dword) (n : Nat) (byte : Nat → Byte) : Prop :=
  ∃ t, exec i s = .next t ∧ WritesExactly s t ea n byte ∧
    (∀ r, t.readGpr r = if r = i.ra then ea else s.readGpr r) ∧ t.pc = s.pc + 4#64 ∧ SameRest s t

/-- The stops of a storage operand, each under the conditions that the earlier checks passed (60_exceptions.md rule R105,
items 7 to 10). -/
def StopsInOrder (i : Instr) (s : State) (ea : Dword) (n : Nat) : Prop :=
  (storageSize < ea.toNat + n → exec i s = .refused (.addressWrap ea s.pc)) ∧
  (ea.toNat + n ≤ storageSize → ea.toNat % n ≠ 0 → s.params.misalign = .fault →
    exec i s = .fault (.alignmentFault ea n s.pc)) ∧
  (ea.toNat + n ≤ storageSize → ea.toNat % n ≠ 0 → s.params.misalign = .refuse →
    exec i s = .refused (.misalignedRefused ea n s.pc)) ∧
  (ea.toNat + n ≤ storageSize → (ea.toNat % n = 0 ∨ s.params.misalign = .perform) → admits s.params ea n = false →
    exec i s = .fault (.storageFault ea n s.pc)) ∧
  (ea.toNat + n ≤ storageSize → (ea.toNat % n = 0 ∨ s.params.misalign = .perform) → admits s.params ea n = true →
    meetsText s.params ea n = true → exec i s = .refused (.textOverwritten ea n s.pc))

/-- The stops of a one-byte operand: never misaligned, never past the top (40_store_shifted.md rule R82). -/
def ByteStops (i : Instr) (s : State) (ea : Dword) : Prop :=
  (admits s.params ea 1 = false → exec i s = .fault (.storageFault ea 1 s.pc)) ∧
  (admits s.params ea 1 = true → meetsText s.params ea 1 = true → exec i s = .refused (.textOverwritten ea 1 s.pc))

/-- The X-Form word of an instruction has PO = 31, the extended opcode `x` and bit 31 = 0 (30_encoding.md rules R61 and
R66), whatever the table of extended opcodes is. -/
def EncodedWith (i : Instr) (x : XoTable → BitVec 8) : Prop :=
  ∀ t : XoTable, fieldPO (encode t i) = 31#6 ∧ fieldXO (encode t i) = x t ∧ fieldR31 (encode t i) = 0#1

/-! ## Launch and run -/

/-- The next step fetches an instruction: the run is `Running`, there is one agent, `pc` is not the end of the text and
not at the top of the address space (60_exceptions.md rule R105, items 1 and 2). -/
abbrev CanFetch (s : State) : Prop :=
  s.outcome = .running ∧ s.params.otherAgents = 0 ∧ s.pc.toNat ≠ textEnd s.params ∧ s.pc.toNat + 4 < storageSize

/-- R121 `TextAligned`. -/
abbrev TextAligned (p : Params) : Prop := p.textBase.toNat % 4 = 0

/-- R121 `TextFits`: `TEXT_BASE + 4*len(TEXT) <= 2^64 - 4`. -/
abbrev TextFits (p : Params) : Prop := textEnd p + 4 ≤ storageSize

/-- R121 `TextInMem`: storage holds `TEXT` at `TEXT_BASE` in the byte order of the run (R120). -/
abbrev TextInMem (s : State) : Prop :=
  s.mem.readBytes s.params.textBase.toNat (4 * s.params.text.length) = textBytes s.params.bigEndian s.params.text

/-- R121 `SingleAgent`. -/
abbrev SingleAgent (p : Params) : Prop := p.otherAgents = 0

/-- The named premises of a claim about a run (70_reset_and_hazards.md rule R121), with R66's constraint on the extended
opcodes; `pc` starts at `TEXT_BASE` (R120). -/
abbrev LaunchPremises (s : State) : Prop :=
  TextAligned s.params ∧ TextFits s.params ∧ TextInMem s ∧ s.outcome = .running ∧ SingleAgent s.params ∧
    s.params.xo.Distinct ∧ s.pc = s.params.textBase

/-- One step of a run with its stop recorded; only `Running` has a next step (10_state.md rule R32). -/
def advance (s : State) : State :=
  if s.outcome = .running then record s (step s) else s

/-- `k` steps of a run. -/
def runFor : Nat → State → State
  | 0, s => s
  | k + 1, s => runFor k (advance s)

/-- The run has ended (10_state.md rule R32). -/
abbrev Terminal (s : State) : Prop := s.outcome ≠ .running

/-- The invariant of the machine: storage is canonical; the text is aligned, fits, and stands in storage as it was loaded
(R55, R121); one agent; distinct extended opcodes (R66); `pc` is the address of a word of the text or its end (R24,
R25); and an exited run stands at the end of the text (R123). -/
abbrev MachineInv (s : State) : Prop :=
  Memory.wf s.mem = true ∧ TextAligned s.params ∧ TextFits s.params ∧ TextInMem s ∧ SingleAgent s.params ∧
    s.params.xo.Distinct ∧ s.params.textBase.toNat ≤ s.pc.toNat ∧ s.pc.toNat ≤ textEnd s.params ∧
    s.pc.toNat % 4 = 0 ∧ (s.outcome = .exited → s.pc.toNat = textEnd s.params)

end Sys2Proof.Machine
end

