-- ==== Sys2Proof/Certificates/Slice0/Obligations.lean ====
section
/-! DEFINITION. The statements for the provers, in the order of spec/: encoding, registers and effective address, storage,
the eleven instructions, the step, stops, reset and launch, the run. -/

open Sys2Proof Sys2Proof.Machine

/-! ## Encoding -/

/-- 95_test_vectors.md section 4, property 7, in the encoding direction: a well-formed instruction survives encoding and
decoding, whatever the pairwise distinct extended opcodes are (30_encoding.md rules R61, R66, R68). -/
def Obligations.DecodeEncodeRoundTrip : Prop :=
  ∀ (t : XoTable) (i : Instr), t.Distinct → i.WellFormed → decode t (encode t i) = .instr i

/-- 95_test_vectors.md section 4, property 7: decoding and then encoding is the identity on accepted words, and what is
accepted is well-formed. -/
def Obligations.EncodeDecodeRoundTrip : Prop :=
  ∀ (t : XoTable) (w : Word) (i : Instr), decode t w = .instr i → encode t i = w ∧ i.WellFormed

/-- 30_encoding.md rule R68: the decoding procedure in terms of its mask and match, and the table's mask. -/
def Obligations.DecodeFollowsMaskAndMatch : Prop :=
  ∀ (t : XoTable) (w : Word), t.Distinct →
    ((∀ m, w &&& 0xFC0001FE#32 ≠ matchWord t m) → decode t w = .reject .notInScope) ∧
    (∀ m, w &&& 0xFC0001FE#32 = matchWord t m →
      (w.getLsbD 0 = true → decode t w = .reject .reservedBitSet) ∧
      (w.getLsbD 0 = false → m.isUpdate = true → w.extractLsb' 16 5 = 0#5 → decode t w = .reject .invalidForm) ∧
      (w.getLsbD 0 = false → ¬ (m.isUpdate = true ∧ w.extractLsb' 16 5 = 0#5) →
        decode t w = .instr (instrOf m (regOfBits (w.extractLsb' 21 5)) (regOfBits (w.extractLsb' 16 5))
          (regOfBits (w.extractLsb' 11 5)) (shOfBits (w.extractLsb' 9 2))))) ∧
    (∀ m, w &&& 0xFC0001FF#32 = matchWord t m ↔ w &&& 0xFC0001FE#32 = matchWord t m ∧ w.getLsbD 0 = false)

/-- 30_encoding.md rule R69: of the words that carry an instruction's fields, exactly those of an update form with RA = 0
are the invalid form; every other field combination is valid. -/
def Obligations.InvalidFormIsUpdateWithRaZero : Prop :=
  ∀ (t : XoTable) (i : Instr), t.Distinct →
    (decode t (encode t i) = .reject .invalidForm ↔ i.mnemonic.isUpdate = true ∧ i.ra = 0) ∧
    (decode t (encode t i) ≠ .reject .invalidForm → decode t (encode t i) = .instr i)

/-- 30_encoding.md rules R61 and R62 on the base words of 95_test_vectors.md section 2.6 (an XO field of 0x12, 0x34,
0x56 or 0xFF is only put in to have a word): a sanity statement about a few words. -/
def Obligations.SpecWordsDecode : Prop :=
  ∀ t : XoTable, t.Distinct →
    (t.stbsx = 0x12#8 → decode t 0x7CA32024#32 = .instr (.stbsx 5 3 4 0)) ∧
    (t.sthsux = 0xFF#8 → decode t 0x7D4B67FE#32 = .instr (.sthsux 10 11 12 3)) ∧
    (t.stdsux = 0x34#8 → decode t 0x7CE11468#32 = .instr (.stdsux 7 1 2 2)) ∧
    (t.stwbrsx = 0x56#8 → decode t 0x7CC322AC#32 = .instr (.stwbrsx 6 3 4 1)) ∧
    decode t 0x60000000#32 = .reject .notInScope

/-! ## Registers and the effective address -/

/-- 10_state.md rules R20 and R21: 32 registers, each holding what was last written to it, `GPR[0]` among them. -/
def Obligations.RegistersHoldWhatWasWritten : Prop :=
  ∀ (s : State) (r r' : RegNum) (v : Dword),
    (s.writeGpr r v).readGpr r' = (if r' = r then v else s.readGpr r') ∧
    (s.writeGpr r v).pc = s.pc ∧ (s.writeGpr r v).mem = s.mem ∧ SameRest s (s.writeGpr r v)

/-- 10_state.md rule R22: what a completed instruction writes to registers (RA alone, and only in an update form), and that
what it does depends on no register but RS, RB and, where the RA field is not 0, RA; all of them read before. -/
def Obligations.InstructionsReadAndWriteTheirRegisters : Prop :=
  ∀ (i : Instr) (s : State), s.mem.wf = true →
    (∀ t, exec i s = .next t →
      (∀ r, t.readGpr r = if i.mnemonic.isUpdate = true ∧ r = i.ra then operandAddress i s else s.readGpr r) ∧
      WritesExactly s t (operandAddress i s) (operandSize i.mnemonic) (operandByte i s)) ∧
    (∀ s' : State, s'.pc = s.pc → s'.mem = s.mem → s'.outcome = s.outcome → s'.params = s.params →
      s'.readGpr i.rs = s.readGpr i.rs → s'.readGpr i.rb = s.readGpr i.rb →
      (i.ra ≠ 0 → s'.readGpr i.ra = s.readGpr i.ra) →
      (∀ f, exec i s = .fault f → exec i s' = .fault f) ∧ (∀ r, exec i s = .refused r → exec i s' = .refused r) ∧
      (∀ t, exec i s = .next t → ∃ t', exec i s' = .next t' ∧ t'.mem = t.mem ∧ t'.pc = t.pc ∧
        (i.mnemonic.isUpdate = true → t'.readGpr i.ra = t.readGpr i.ra)))

/-- 40_store_shifted.md rule R80: the effective address of a form without update, modulo 2^64, and the index as a signed
element count. -/
def Obligations.IndexedAddressFormula : Prop :=
  ∀ (s : State) (ra rb : RegNum) (sh : ShSel),
    (eaIndexed s ra rb sh).toNat =
      ((if ra = 0 then 0 else (s.readGpr ra).toNat) + (s.readGpr rb).toNat * 2 ^ (sh.val + 1)) % 2 ^ 64 ∧
    (∀ k : Nat, 1 ≤ k → k ≤ 2 ^ 64 → (s.readGpr rb).toNat = 2 ^ 64 - k →
      eaIndexed s ra rb sh = (if ra = 0 then 0#64 else s.readGpr ra) - BitVec.ofNat 64 (k * 2 ^ (sh.val + 1)))

/-- 40_store_shifted.md rule R81, for the four update forms: RA = 0 is the invalid form; EA; the store with RS as read before
any write; RA receives EA exactly when the store completed. -/
def Obligations.UpdateFormsWriteBackAddress : Prop :=
  ∀ (i : Instr) (s : State), i.mnemonic.isUpdate = true → s.mem.wf = true →
    (i.ra = 0 → exec i s = .fault (.invalidForm (encode s.params.xo i) s.pc)) ∧
    (operandAddress i s).toNat =
      ((s.readGpr i.ra).toNat + (s.readGpr i.rb).toNat * 2 ^ (i.sh.val + 1)) % 2 ^ 64 ∧
    (i.ra ≠ 0 → StoreOk s (operandAddress i s) (operandSize i.mnemonic) → ∃ t, exec i s = .next t ∧
      t.readGpr i.ra = operandAddress i s ∧
      WritesExactly s t (operandAddress i s) (operandSize i.mnemonic) (operandByte i s)) ∧
    (¬ StoreOk s (operandAddress i s) (operandSize i.mnemonic) →
      (∀ t, exec i s ≠ .next t) ∧ (record s (exec i s)).readGpr i.ra = s.readGpr i.ra)

/-- 20_memory.md rule R46: EA is congruent to the base modulo 2^(SH+1), and is aligned to min(n, 2^(SH+1)) whenever the base
is. -/
def Obligations.AddressKeepsBaseAlignment : Prop :=
  ∀ (i : Instr) (s : State) (b : Dword),
    b = (if i.mnemonic.isUpdate = true then s.readGpr i.ra else if i.ra = 0 then 0#64 else s.readGpr i.ra) →
    (operandAddress i s).toNat % 2 ^ (i.sh.val + 1) = b.toNat % 2 ^ (i.sh.val + 1) ∧
    (∀ n ∈ [1, 2, 4, 8], b.toNat % min n (2 ^ (i.sh.val + 1)) = 0 →
      (operandAddress i s).toNat % min n (2 ^ (i.sh.val + 1)) = 0)

/-! ## Storage -/

/-- 20_memory.md rule R41: `MemWrite`, its checks in order, and the n bytes in the byte order of the run. -/
def Obligations.MemWriteChecksThenWrites : Prop :=
  ∀ (s : State) (addr : Dword) (n : Nat) (v : BitVec (8 * n)), n ∈ [1, 2, 4, 8] → s.mem.wf = true →
    (2 ^ 64 < addr.toNat + n → memWrite s addr n v = .refused (.addressWrap addr s.pc)) ∧
    (addr.toNat + n ≤ 2 ^ 64 → addr.toNat % n ≠ 0 → s.params.misalign = .fault →
      memWrite s addr n v = .fault (.alignmentFault addr n s.pc)) ∧
    (addr.toNat + n ≤ 2 ^ 64 → addr.toNat % n ≠ 0 → s.params.misalign = .refuse →
      memWrite s addr n v = .refused (.misalignedRefused addr n s.pc)) ∧
    (addr.toNat + n ≤ 2 ^ 64 → (addr.toNat % n = 0 ∨ s.params.misalign = .perform) →
      (admits s.params addr n = false → memWrite s addr n v = .fault (.storageFault addr n s.pc)) ∧
      (admits s.params addr n = true →
        ((∃ a, addr.toNat ≤ a ∧ a < addr.toNat + n ∧ s.params.textBase.toNat ≤ a ∧
            a < s.params.textBase.toNat + 4 * s.params.text.length) →
          memWrite s addr n v = .refused (.textOverwritten addr n s.pc)) ∧
        ((∀ a, addr.toNat ≤ a → a < addr.toNat + n →
            ¬ (s.params.textBase.toNat ≤ a ∧ a < s.params.textBase.toNat + 4 * s.params.text.length)) →
          ∃ t, memWrite s addr n v = .next t ∧ t.gpr = s.gpr ∧ t.pc = s.pc ∧ SameRest s t ∧
            WritesExactly s t addr n fun k =>
              v.extractLsb' (8 * (if s.params.bigEndian = true then n - 1 - k else k)) 8)))

/-- 20_memory.md rule R44: `MemRead` returns the value whose bytes are those of storage, in the order of the run. -/
def Obligations.MemReadTakesBytesInOrder : Prop :=
  ∀ (s : State) (addr n j : Nat), j < n →
    byteAt (memRead s addr n) j = s.mem.read (addr + (if s.params.bigEndian = true then n - 1 - j else j))

/-- 20_memory.md rules R41 and R44 together: reading what was just written gives the value, in either byte order. -/
def Obligations.MemReadReturnsWhatMemWriteStored : Prop :=
  ∀ (s t : State) (addr : Dword) (n : Nat) (v : BitVec (8 * n)), s.mem.wf = true → memWrite s addr n v = .next t →
    memRead t addr.toNat n = v

/-- 20_memory.md rule R42, its mixed-width view, at every address. -/
def Obligations.MixedWidthViewOfWord : Prop :=
  ∀ (s : State) (a : Dword), s.mem.wf = true → StoreOk s a 4 →
    ∃ t, memWrite s a 4 0x89ABCDEF#32 = .next t ∧
      (s.params.bigEndian = true → memRead t a.toNat 2 = 0x89AB#16 ∧ memRead t (a.toNat + 3) 1 = 0xEF#8) ∧
      (s.params.bigEndian = false → memRead t a.toNat 2 = 0xCDEF#16 ∧ memRead t (a.toNat + 3) 1 = 0x89#8)

/-- 20_memory.md rule R47: writing the same bytes twice leaves the same `Mem`. -/
def Obligations.MemWriteTwiceIsOnce : Prop :=
  ∀ (s t : State) (addr : Dword) (n : Nat) (v : BitVec (8 * n)), s.mem.wf = true → memWrite s addr n v = .next t →
    memWrite t addr n v = .next t

/-- 20_memory.md rule R57: (a) exactly the operand's bytes are new, (b) a later store replaces them byte by byte, (c) a fault
or refusal leaves `Mem` as it was. -/
def Obligations.StoresComposeByteByByte : Prop :=
  ∀ (i j : Instr) (s : State), s.mem.wf = true →
    (∀ t, exec i s = .next t →
      WritesExactly s t (operandAddress i s) (operandSize i.mnemonic) (operandByte i s) ∧
      ∀ u, exec j t = .next u → ∀ a, u.mem.read a =
        if (operandAddress j t).toNat ≤ a ∧ a < (operandAddress j t).toNat + operandSize j.mnemonic then
          operandByte j t (a - (operandAddress j t).toNat)
        else if (operandAddress i s).toNat ≤ a ∧ a < (operandAddress i s).toNat + operandSize i.mnemonic then
          operandByte i s (a - (operandAddress i s).toNat)
        else s.mem.read a) ∧
    ((∀ t, exec i s ≠ .next t) → (record s (exec i s)).mem = s.mem)

/-- 42_store_byte_reverse_shifted.md rule R95 (95_test_vectors.md section 4, property 1): a byte-reverse store leaves the
storage that the plain store of its width leaves under the other byte order, and changes no register. -/
def Obligations.ByteReverseIsOtherByteOrder : Prop :=
  ∀ (rs ra rb : RegNum) (sh : ShSel) (s : State),
    let other : State := { s with params := { s.params with bigEndian := !s.params.bigEndian } }
    ∀ p ∈ [(Instr.sthbrsx rs ra rb sh, Instr.sthsx rs ra rb sh), (Instr.stwbrsx rs ra rb sh, Instr.stwsx rs ra rb sh),
        (Instr.stdbrsx rs ra rb sh, Instr.stdsx rs ra rb sh)],
      ∀ t, exec p.1 s = .next t → t.gpr = s.gpr ∧ ∃ u, exec p.2 other = .next u ∧ u.mem = t.mem

/-! ## The eleven instructions: each rule's effect, stops and opcode -/

/-- 40_store_shifted.md rule R82. -/
def Obligations.StbsxStoresLowByte : Prop :=
  ∀ (rs ra rb : RegNum) (sh : ShSel) (s : State), s.mem.wf = true →
    (StoreOk s (eaIndexed s ra rb sh) 1 →
      CompletesIndexed (.stbsx rs ra rb sh) s (eaIndexed s ra rb sh) 1 fun _ => (s.readGpr rs).extractLsb' 0 8) ∧
    ByteStops (.stbsx rs ra rb sh) s (eaIndexed s ra rb sh) ∧
    EncodedWith (.stbsx rs ra rb sh) XoTable.stbsx

/-- 40_store_shifted.md rule R83. -/
def Obligations.StbsuxStoresLowByteAndUpdates : Prop :=
  ∀ (rs ra rb : RegNum) (sh : ShSel) (s : State), s.mem.wf = true →
    (ra ≠ 0 → StoreOk s (eaUpdate s ra rb sh) 1 →
      CompletesUpdate (.stbsux rs ra rb sh) s (eaUpdate s ra rb sh) 1 fun _ => (s.readGpr rs).extractLsb' 0 8) ∧
    (ra = 0 → exec (.stbsux rs ra rb sh) s = .fault (.invalidForm (encode s.params.xo (.stbsux rs ra rb sh)) s.pc)) ∧
    (ra ≠ 0 → ByteStops (.stbsux rs ra rb sh) s (eaUpdate s ra rb sh)) ∧
    EncodedWith (.stbsux rs ra rb sh) XoTable.stbsux

/-- 40_store_shifted.md rule R84. -/
def Obligations.SthsxStoresLowHalfword : Prop :=
  ∀ (rs ra rb : RegNum) (sh : ShSel) (s : State), s.mem.wf = true →
    (StoreOk s (eaIndexed s ra rb sh) 2 →
      CompletesIndexed (.sthsx rs ra rb sh) s (eaIndexed s ra rb sh) 2 fun k =>
        (s.readGpr rs).extractLsb' (8 * (if s.params.bigEndian = true then 1 - k else k)) 8) ∧
    StopsInOrder (.sthsx rs ra rb sh) s (eaIndexed s ra rb sh) 2 ∧
    EncodedWith (.sthsx rs ra rb sh) XoTable.sthsx

/-- 40_store_shifted.md rule R85 (90_conflicts.md C2). -/
def Obligations.SthsuxStoresLowHalfwordAndUpdates : Prop :=
  ∀ (rs ra rb : RegNum) (sh : ShSel) (s : State), s.mem.wf = true →
    (ra ≠ 0 → StoreOk s (eaUpdate s ra rb sh) 2 →
      CompletesUpdate (.sthsux rs ra rb sh) s (eaUpdate s ra rb sh) 2 fun k =>
        (s.readGpr rs).extractLsb' (8 * (if s.params.bigEndian = true then 1 - k else k)) 8) ∧
    (ra = 0 → exec (.sthsux rs ra rb sh) s = .fault (.invalidForm (encode s.params.xo (.sthsux rs ra rb sh)) s.pc)) ∧
    (ra ≠ 0 → StopsInOrder (.sthsux rs ra rb sh) s (eaUpdate s ra rb sh) 2) ∧
    EncodedWith (.sthsux rs ra rb sh) XoTable.sthsux

/-- 40_store_shifted.md rule R86. -/
def Obligations.StwsxStoresLowWord : Prop :=
  ∀ (rs ra rb : RegNum) (sh : ShSel) (s : State), s.mem.wf = true →
    (StoreOk s (eaIndexed s ra rb sh) 4 →
      CompletesIndexed (.stwsx rs ra rb sh) s (eaIndexed s ra rb sh) 4 fun k =>
        (s.readGpr rs).extractLsb' (8 * (if s.params.bigEndian = true then 3 - k else k)) 8) ∧
    StopsInOrder (.stwsx rs ra rb sh) s (eaIndexed s ra rb sh) 4 ∧
    EncodedWith (.stwsx rs ra rb sh) XoTable.stwsx

/-- 40_store_shifted.md rule R87 (90_conflicts.md C2). -/
def Obligations.StwsuxStoresLowWordAndUpdates : Prop :=
  ∀ (rs ra rb : RegNum) (sh : ShSel) (s : State), s.mem.wf = true →
    (ra ≠ 0 → StoreOk s (eaUpdate s ra rb sh) 4 →
      CompletesUpdate (.stwsux rs ra rb sh) s (eaUpdate s ra rb sh) 4 fun k =>
        (s.readGpr rs).extractLsb' (8 * (if s.params.bigEndian = true then 3 - k else k)) 8) ∧
    (ra = 0 → exec (.stwsux rs ra rb sh) s = .fault (.invalidForm (encode s.params.xo (.stwsux rs ra rb sh)) s.pc)) ∧
    (ra ≠ 0 → StopsInOrder (.stwsux rs ra rb sh) s (eaUpdate s ra rb sh) 4) ∧
    EncodedWith (.stwsux rs ra rb sh) XoTable.stwsux

/-- 41_store_doubleword_shifted.md rule R90. -/
def Obligations.StdsxStoresDoubleword : Prop :=
  ∀ (rs ra rb : RegNum) (sh : ShSel) (s : State), s.mem.wf = true →
    (StoreOk s (eaIndexed s ra rb sh) 8 →
      CompletesIndexed (.stdsx rs ra rb sh) s (eaIndexed s ra rb sh) 8 fun k =>
        (s.readGpr rs).extractLsb' (8 * (if s.params.bigEndian = true then 7 - k else k)) 8) ∧
    StopsInOrder (.stdsx rs ra rb sh) s (eaIndexed s ra rb sh) 8 ∧
    EncodedWith (.stdsx rs ra rb sh) XoTable.stdsx

/-- 41_store_doubleword_shifted.md rule R91 (90_conflicts.md C3). -/
def Obligations.StdsuxStoresDoublewordAndUpdates : Prop :=
  ∀ (rs ra rb : RegNum) (sh : ShSel) (s : State), s.mem.wf = true →
    (ra ≠ 0 → StoreOk s (eaUpdate s ra rb sh) 8 →
      CompletesUpdate (.stdsux rs ra rb sh) s (eaUpdate s ra rb sh) 8 fun k =>
        (s.readGpr rs).extractLsb' (8 * (if s.params.bigEndian = true then 7 - k else k)) 8) ∧
    (ra = 0 → exec (.stdsux rs ra rb sh) s = .fault (.invalidForm (encode s.params.xo (.stdsux rs ra rb sh)) s.pc)) ∧
    (ra ≠ 0 → StopsInOrder (.stdsux rs ra rb sh) s (eaUpdate s ra rb sh) 8) ∧
    EncodedWith (.stdsux rs ra rb sh) XoTable.stdsux

/-- 42_store_byte_reverse_shifted.md rule R96. -/
def Obligations.SthbrsxStoresReversedHalfword : Prop :=
  ∀ (rs ra rb : RegNum) (sh : ShSel) (s : State), s.mem.wf = true →
    (StoreOk s (eaIndexed s ra rb sh) 2 →
      CompletesIndexed (.sthbrsx rs ra rb sh) s (eaIndexed s ra rb sh) 2 fun k =>
        (s.readGpr rs).extractLsb' (8 * (if s.params.bigEndian = true then k else 1 - k)) 8) ∧
    StopsInOrder (.sthbrsx rs ra rb sh) s (eaIndexed s ra rb sh) 2 ∧
    EncodedWith (.sthbrsx rs ra rb sh) XoTable.sthbrsx

/-- 42_store_byte_reverse_shifted.md rule R97. -/
def Obligations.StwbrsxStoresReversedWord : Prop :=
  ∀ (rs ra rb : RegNum) (sh : ShSel) (s : State), s.mem.wf = true →
    (StoreOk s (eaIndexed s ra rb sh) 4 →
      CompletesIndexed (.stwbrsx rs ra rb sh) s (eaIndexed s ra rb sh) 4 fun k =>
        (s.readGpr rs).extractLsb' (8 * (if s.params.bigEndian = true then k else 3 - k)) 8) ∧
    StopsInOrder (.stwbrsx rs ra rb sh) s (eaIndexed s ra rb sh) 4 ∧
    EncodedWith (.stwbrsx rs ra rb sh) XoTable.stwbrsx

/-- 42_store_byte_reverse_shifted.md rule R98 (90_conflicts.md C4). -/
def Obligations.StdbrsxStoresReversedDoubleword : Prop :=
  ∀ (rs ra rb : RegNum) (sh : ShSel) (s : State), s.mem.wf = true →
    (StoreOk s (eaIndexed s ra rb sh) 8 →
      CompletesIndexed (.stdbrsx rs ra rb sh) s (eaIndexed s ra rb sh) 8 fun k =>
        (s.readGpr rs).extractLsb' (8 * (if s.params.bigEndian = true then k else 7 - k)) 8) ∧
    StopsInOrder (.stdbrsx rs ra rb sh) s (eaIndexed s ra rb sh) 8 ∧
    EncodedWith (.stdbrsx rs ra rb sh) XoTable.stdbrsx

/-! ## Frames -/

/-- The frame of `stbsx`, `sthsx`, `stwsx`, `stdsx`, `sthbrsx`, `stwbrsx`, `stdbrsx` (10_state.md rules R22 and R27,
20_memory.md rule R57): no register, no parameter, not the outcome, and no byte outside the operand. -/
def Obligations.FrameOfStoresWithoutUpdate : Prop :=
  ∀ (i : Instr) (s t : State), i.mnemonic.isUpdate = false → s.mem.wf = true → exec i s = .next t →
    t.gpr = s.gpr ∧ SameRest s t ∧
    ∀ a, (a < (eaIndexed s i.ra i.rb i.sh).toNat ∨
        (eaIndexed s i.ra i.rb i.sh).toNat + operandSize i.mnemonic ≤ a) → t.mem.read a = s.mem.read a

/-- The frame of `stbsux`, `sthsux`, `stwsux`, `stdsux`: no register but RA, no parameter, not the outcome, and no byte
outside the operand. -/
def Obligations.FrameOfStoresWithUpdate : Prop :=
  ∀ (i : Instr) (s t : State), i.mnemonic.isUpdate = true → s.mem.wf = true → exec i s = .next t →
    (∀ r, r ≠ i.ra → t.readGpr r = s.readGpr r) ∧ SameRest s t ∧
    ∀ a, (a < (eaUpdate s i.ra i.rb i.sh).toNat ∨
        (eaUpdate s i.ra i.rb i.sh).toNat + operandSize i.mnemonic ≤ a) → t.mem.read a = s.mem.read a

/-! ## The step -/

/-- A step runs the decoded instruction: where the next step fetches and the word at `pc` decodes to `i`, the step is
`exec i`, and nothing stands around it (60_exceptions.md rule R105, items 3 to 11). -/
def Obligations.StepRunsDecodedInstruction : Prop :=
  ∀ (s : State) (i : Instr), CanFetch s → decode s.params.xo (memRead s s.pc.toNat 4) = .instr i → step s = exec i s

/-- 60_exceptions.md rule R105: the order of the checks in one step of a running machine, items 1 to 11, over the fields
of the fetched word. -/
def Obligations.StepChecksInOrder : Prop :=
  ∀ s : State, s.outcome = .running → SingleAgent s.params → s.params.xo.Distinct → s.mem.wf = true →
    (s.pc.toNat = s.params.textBase.toNat + 4 * s.params.text.length → step s = .next { s with outcome := .exited }) ∧
    (s.pc.toNat ≠ s.params.textBase.toNat + 4 * s.params.text.length → s.pc.toNat = 2 ^ 64 - 4 →
      step s = .refused (.addressWrap s.pc s.pc)) ∧
    (CanFetch s → ∀ w, w = memRead s s.pc.toNat 4 →
      ((fieldPO w ≠ 31#6 ∨ ∀ m, s.params.xo.get m ≠ fieldXO w) → step s = .refused (.notInScope w s.pc)) ∧
      ∀ m, fieldPO w = 31#6 → fieldXO w = s.params.xo.get m →
        (fieldR31 w = 1#1 → step s = .refused (.reservedBitSet w s.pc)) ∧
        (fieldR31 w = 0#1 → m.isUpdate = true → fieldRA w = 0#5 → step s = .fault (.invalidForm w s.pc)) ∧
        (fieldR31 w = 0#1 → (m.isUpdate = false ∨ fieldRA w ≠ 0#5) →
          ∀ i, i = instrOf m (regOfBits (fieldRS w)) (regOfBits (fieldRA w)) (regOfBits (fieldRB w))
            (shOfBits (fieldSH w)) →
          step s = exec i s ∧ StopsInOrder i s (operandAddress i s) (operandSize m) ∧
          (StoreOk s (operandAddress i s) (operandSize m) → ∃ t, step s = .next t ∧
            WritesExactly s t (operandAddress i s) (operandSize m) (operandByte i s) ∧
            (∀ r, t.readGpr r = if m.isUpdate = true ∧ r = i.ra then operandAddress i s else s.readGpr r) ∧
            t.pc = s.pc + 4#64 ∧ SameRest s t)))

/-- 70_reset_and_hazards.md rule R123: at the end of the text the run exits, whatever stands in storage there. -/
def Obligations.StepExitsAtTextEnd : Prop :=
  ∀ (s : State) (m : Memory), s.outcome = .running → SingleAgent s.params → s.pc.toNat = textEnd s.params →
    step (s.withMem m) = .next ((s.withMem m).withOutcome .exited)

/-- 10_state.md rule R26 in the order of 60_exceptions.md rule R105: at `pc = 2^64 - 4`, unless that is the end of the
text, the step is refused, whatever stands in storage there. -/
def Obligations.StepRefusesTopOfAddressSpace : Prop :=
  ∀ (s : State) (m : Memory), s.outcome = .running → SingleAgent s.params →
    s.pc = 0xFFFFFFFFFFFFFFFC#64 → textEnd s.params ≠ 2 ^ 64 - 4 →
    step (s.withMem m) = .refused (.addressWrap s.pc s.pc)

/-- 60_exceptions.md rule R114 (20_memory.md rule R52): a configuration with more than one agent is refused, not run. -/
def Obligations.SecondAgentIsRefused : Prop :=
  ∀ s : State, s.outcome = .running → s.params.otherAgents ≠ 0 → step s = .refused (.secondAgent s.pc)

/-- 10_state.md rule R28 (20_memory.md rule R42): no step changes a parameter of the run. -/
def Obligations.StepKeepsParameters : Prop :=
  ∀ s t : State, step s = .next t → t.params = s.params ∧ (t.outcome = .running ∨ t.outcome = .exited)

/-! ## Stops -/

/-- 60_exceptions.md rule R100: a step of a running single-agent machine that stops does so with an outcome of the closed
list, recorded with its info, and only where the list says it is raised, but for one clause that is the model's choice: the
list (with 10_state.md rule R26) gives `AddressWrap` of `pc` at 2^64 - 4 alone, and the clause here admits it at every `pc`
with `2^64 <= pc + 4` (log entry 9, DESIGN CHOICE). For a `pc` that is a multiple of 4, as `MachineInv` says it is, the two
say the same. -/
def Obligations.StopsHaveTheirCauses : Prop :=
  ∀ s : State, s.outcome = .running → SingleAgent s.params →
    (∀ w p, step s = .fault (.invalidForm w p) → w = fetchWord s ∧ p = s.pc ∧
      ∃ m : Mnemonic, m.isUpdate = true ∧ fieldPO w = 31#6 ∧ fieldXO w = s.params.xo.get m ∧ fieldRA w = 0#5) ∧
    (∀ ea n p, step s = .fault (.storageFault ea n p) → p = s.pc ∧ admits s.params ea n = false ∧
      ∃ i, decode s.params.xo (fetchWord s) = .instr i ∧ ea = operandAddress i s ∧ n = operandSize i.mnemonic) ∧
    (∀ ea n p, step s = .fault (.alignmentFault ea n p) → p = s.pc ∧ ea.toNat % n ≠ 0 ∧ s.params.misalign = .fault ∧
      ∃ i, decode s.params.xo (fetchWord s) = .instr i ∧ ea = operandAddress i s ∧ n = operandSize i.mnemonic) ∧
    (∀ r, step s = .refused r →
      (r = .notInScope (fetchWord s) s.pc ∧
        (fieldPO (fetchWord s) ≠ 31#6 ∨ ∀ m, s.params.xo.get m ≠ fieldXO (fetchWord s))) ∨
      (r = .reservedBitSet (fetchWord s) s.pc ∧ fieldR31 (fetchWord s) = 1#1 ∧ fieldPO (fetchWord s) = 31#6 ∧
        ∃ m, s.params.xo.get m = fieldXO (fetchWord s)) ∨
      (r = .addressWrap s.pc s.pc ∧ 2 ^ 64 ≤ s.pc.toNat + 4) ∨
      ∃ i, decode s.params.xo (fetchWord s) = .instr i ∧
        ((r = .addressWrap (operandAddress i s) s.pc ∧
            2 ^ 64 < (operandAddress i s).toNat + operandSize i.mnemonic) ∨
          (r = .textOverwritten (operandAddress i s) (operandSize i.mnemonic) s.pc ∧
            meetsText s.params (operandAddress i s) (operandSize i.mnemonic) = true) ∨
          (r = .misalignedRefused (operandAddress i s) (operandSize i.mnemonic) s.pc ∧
            (operandAddress i s).toNat % operandSize i.mnemonic ≠ 0 ∧ s.params.misalign = .refuse)))

/-- 60_exceptions.md rule R102: `StorageFault` is raised, with EA and n, when `Admit(EA, n)` rejects the operand that passed
the earlier checks, and only then; with `Admit` constantly true it never occurs. -/
def Obligations.StorageFaultExactlyWhenNotAdmitted : Prop :=
  ∀ (i : Instr) (s : State),
    (i.WellFormed → (operandAddress i s).toNat + operandSize i.mnemonic ≤ 2 ^ 64 →
      ((operandAddress i s).toNat % operandSize i.mnemonic = 0 ∨ s.params.misalign = .perform) →
      (exec i s = .fault (.storageFault (operandAddress i s) (operandSize i.mnemonic) s.pc) ↔
        admits s.params (operandAddress i s) (operandSize i.mnemonic) = false)) ∧
    ((∀ (a : Dword) (n : Nat), n ∈ [1, 2, 4, 8] → admits s.params a n = true) →
      ∀ ea n p, exec i s ≠ .fault (.storageFault ea n p))

/-- 60_exceptions.md rule R103: `AlignmentFault` is raised only under `MISALIGN = fault`, by the halfword, word and
doubleword instructions when EA is not a multiple of n; never by `stbsx` or `stbsux`. -/
def Obligations.AlignmentFaultOnlyWhenAsked : Prop :=
  ∀ (i : Instr) (s : State),
    (∀ (ea : Dword) (n : Nat) (p : Dword), exec i s = .fault (.alignmentFault ea n p) →
      s.params.misalign = .fault ∧ ea = operandAddress i s ∧ n = operandSize i.mnemonic ∧ n ∈ [2, 4, 8] ∧
      ea.toNat % n ≠ 0 ∧ p = s.pc ∧ i.mnemonic ≠ .stbsx ∧ i.mnemonic ≠ .stbsux) ∧
    (i.WellFormed → (operandAddress i s).toNat + operandSize i.mnemonic ≤ 2 ^ 64 →
      (operandAddress i s).toNat % operandSize i.mnemonic ≠ 0 → s.params.misalign = .fault →
      exec i s = .fault (.alignmentFault (operandAddress i s) (operandSize i.mnemonic) s.pc))

/-- 60_exceptions.md rule R107: when a step of a running machine ends in a fault or a refusal, registers, `pc`, `Mem` and
parameters are exactly as they were; only the outcome records it. -/
def Obligations.StopsArePreciseAndChangeNothing : Prop :=
  ∀ s : State, s.outcome = .running →
    (∀ f, (advance s).outcome = .faulted f → step s = .fault f ∧ advance s = { s with outcome := .faulted f }) ∧
    (∀ r, (advance s).outcome = .refused r → step s = .refused r ∧ advance s = { s with outcome := .refused r })

/-- 10_state.md rule R32: only `Running` has a next step; the other outcomes are never cleared. -/
def Obligations.EndedRunsStayEnded : Prop :=
  ∀ (s : State) (k : Nat), Terminal s → (∀ t, step s ≠ .next t) ∧ runFor k s = s

/-! ## Reset and launch -/

/-- What the spec gives at launch (10_state.md rule R33, 70_reset_and_hazards.md rule R120): `pc` is `TEXT_BASE` and the
outcome `Running`, `MISALIGN` is `perform` (00_scope.md rule R6). The registers' 0 and the bytes' 0 are the model's own
choice: log entries 1 and 2; no text is loaded: log entry 6. -/
def Obligations.ResetState : Prop :=
  State.reset.pc = State.reset.params.textBase ∧ State.reset.outcome = .running ∧
    State.reset.params.misalign = .perform ∧ (∀ r, State.reset.readGpr r = 0#64) ∧
    (∀ a, State.reset.mem.read a = 0#8) ∧ State.reset.params.text = []

/-- The launch premises of 70_reset_and_hazards.md rule R121 and the machine's invariant hold right after reset. That the
base and the opcodes meet their limits is the model's choice: log entry 4. -/
def Obligations.ResetMeetsInvariant : Prop :=
  LaunchPremises State.reset ∧ MachineInv State.reset

/-- 70_reset_and_hazards.md rule R120: a launch state with any registers and any storage holds the words of `TEXT` at
`TEXT_BASE` and leaves every other byte as it was given. -/
def Obligations.LaunchHoldsTheText : Prop :=
  ∀ (p : Params) (gpr : Vector Dword 32) (mem : Memory), mem.wf = true → TextFits p →
    (launch p gpr mem).gpr = gpr ∧ (launch p gpr mem).pc = p.textBase ∧ (launch p gpr mem).outcome = .running ∧
    TextInMem (launch p gpr mem) ∧
    (∀ a, (a < p.textBase.toNat ∨ textEnd p ≤ a) → (launch p gpr mem).mem.read a = mem.read a) ∧
    (∀ (k : Nat) (h : k < p.text.length), memRead (launch p gpr mem) (p.textBase.toNat + 4 * k) 4 = p.text[k])

/-- Loading one word (the host's interface, log entry 6): a word that decodes to `i`, placed where the machine fetches, is
the instruction the next step runs; registers, `pc` and every byte outside the word stay. -/
def Obligations.LoadedWordRuns : Prop :=
  ∀ (s : State) (w : Word) (i : Instr), s.mem.wf = true → SingleAgent s.params → s.pc.toNat + 4 < 2 ^ 64 →
    decode s.params.xo w = .instr i →
    step (s.withFetchWord 32 w.toNat) = exec i (s.withFetchWord 32 w.toNat) ∧
    (s.withFetchWord 32 w.toNat).gpr = s.gpr ∧ (s.withFetchWord 32 w.toNat).pc = s.pc ∧
    ∀ a, (a < s.pc.toNat ∨ s.pc.toNat + 4 ≤ a) → (s.withFetchWord 32 w.toNat).mem.read a = s.mem.read a

/-- From reset, every well-formed instruction can be the first that runs, and the host's decoder question answers with it
(the model's own interface: log entries 4 and 6). -/
def Obligations.ResetRunsAnyInstruction : Prop :=
  ∀ i : Instr, i.WellFormed →
    decodeTableWord 32 (encode Config.xo i).toNat = some i ∧
    step (State.reset.withFetchWord 32 (encode Config.xo i).toNat) =
      exec i (State.reset.withFetchWord 32 (encode Config.xo i).toNat)

/-! ## The run -/

/-- The invariant that every step keeps: storage stays canonical, the program text in storage stays as it was loaded
(20_memory.md rule R55), `pc` stays a multiple of 4 at a word of the text or its end (10_state.md rules R24 and R25), and
an exited run stands at the end of the text (70_reset_and_hazards.md rule R123). -/
def Obligations.StepKeepsInvariant : Prop :=
  ∀ s t : State, MachineInv s → step s = .next t → MachineInv t

/-- 20_memory.md rules R44 and R55: while the invariant holds, fetching from `Mem` and fetching from `TEXT` give the same
word, so a running step executes the word of the text at `pc`. -/
def Obligations.StepExecutesTheText : Prop :=
  ∀ (s : State) (k : Nat) (h : k < s.params.text.length) (i : Instr), MachineInv s → s.outcome = .running →
    s.pc.toNat = s.params.textBase.toNat + 4 * k →
    fetchWord s = s.params.text[k] ∧ (decode s.params.xo s.params.text[k] = .instr i → step s = exec i s)

/-- 70_reset_and_hazards.md rule R123: a run of any text of k words is at its (j+1)-th word after j steps, or has stopped in
a fault or a refusal; after the k instructions the next step exits, so the run always ends. (The exit is counted as a step
of its own: log entry 8.) -/
def Obligations.EveryRunEnds : Prop :=
  ∀ s : State, LaunchPremises s →
    (∀ j ≤ s.params.text.length,
      ((runFor j s).outcome = .running ∧ (runFor j s).pc.toNat = s.params.textBase.toNat + 4 * j) ∨
      (∃ f, (runFor j s).outcome = .faulted f) ∨ (∃ r, (runFor j s).outcome = .refused r)) ∧
    (((runFor (s.params.text.length + 1) s).outcome = .exited ∧
        (runFor (s.params.text.length + 1) s).pc.toNat = textEnd s.params) ∨
      (∃ f, (runFor (s.params.text.length + 1) s).outcome = .faulted f) ∨
      (∃ r, (runFor (s.params.text.length + 1) s).outcome = .refused r))
end

