-- ==== Sys2Proof/Laws/Bytes.lean ====
section
/-! SUPPORT. The bytes of a value: how many, which stands where, and that reading back what was laid out gives the value. -/

namespace Sys2Proof.Machine

@[simp] theorem length_storeBytes (be : Bool) (n : Nat) (v : BitVec (8 * n)) : (storeBytes be n v).length = n := by
  simp [storeBytes]

/-- Which byte of the value stands at offset `i` of the operand. -/
theorem getD_storeBytes (be : Bool) {n i : Nat} (v : BitVec (8 * n)) (d : Byte) (h : i < n) :
    (storeBytes be n v).getD i d = byteAt v (if be then n - 1 - i else i) := by
  simp [storeBytes, List.getD_eq_getElem?_getD, h]

theorem toNat_byteAt {w : Nat} (v : BitVec w) (i : Nat) : (byteAt v i).toNat = v.toNat / 2 ^ (8 * i) % 256 := by
  simp [byteAt, BitVec.extractLsb'_toNat, Nat.shiftRight_eq_div_pow]

theorem littleNat_append (xs ys : List Byte) :
    littleNat (xs ++ ys) = littleNat xs + 256 ^ xs.length * littleNat ys := by
  induction xs with
  | nil => simp [littleNat]
  | cons b rest ih => simp [littleNat, ih, pow_succ]; ring

/-- The bytes of a number, least significant first, add up to its low bytes. -/
theorem littleNat_bytes {w : Nat} (v : BitVec w) (n : Nat) :
    littleNat ((List.range n).map fun i => byteAt v i) = v.toNat % 256 ^ n := by
  induction n with
  | zero => simp [littleNat, Nat.mod_one]
  | succ n ih =>
    rw [List.range_succ, List.map_append, littleNat_append, ih]
    simp only [List.map_cons, List.map_nil, List.length_map, List.length_range, littleNat, toNat_byteAt]
    have e : (2 : Nat) ^ (8 * n) = 256 ^ n := by rw [pow_mul]; norm_num
    rw [e, pow_succ, Nat.mod_mul]
    ring

/-- Reversing the bytes of the big-endian order gives the little-endian order. -/
theorem reverse_storeBytes (n : Nat) (v : BitVec (8 * n)) : (storeBytes true n v).reverse = storeBytes false n v := by
  apply List.ext_getElem
  · simp
  · intro i h1 h2
    simp only [List.length_reverse, length_storeBytes] at h1
    simp only [List.getElem_reverse, length_storeBytes]
    simp only [storeBytes, List.getElem_map, List.getElem_range, if_true]
    congr 1
    simp only [Bool.false_eq_true, if_false]
    omega

/-- The bytes of a concatenation whose low part is one byte. -/
theorem byteAt_append {w : Nat} (a : BitVec w) (b : Byte) (k : Nat) :
    byteAt (a ++ b) k = if k = 0 then b else byteAt a (k - 1) := by
  unfold byteAt
  ext j hj
  cases k with
  | zero => simp [BitVec.getLsbD_append, hj]
  | succ k =>
    simp [BitVec.getLsbD_append, show ¬ (8 * (k + 1) + j < 8) by omega, show 8 * (k + 1) + j - 8 = 8 * k + j by omega]

theorem byteAt_byte (b : Byte) : byteAt b 0 = b := by unfold byteAt; ext j hj; simp

/-- A value is its bytes. -/
theorem eq_of_byteAt {n : Nat} {v w : BitVec (8 * n)} (h : ∀ j < n, byteAt v j = byteAt w j) : v = w := by
  ext i hi
  have := congrArg (fun b => b.getLsbD (i % 8)) (h (i / 8) (by omega))
  simp [byteAt, Nat.mod_lt, show 8 * (i / 8) + i % 8 = i by omega] at this
  simpa [hi] using this

/-- Reading back the bytes of a value gives the value, in either order (20_memory.md rules R41 and R44). -/
theorem loadValue_storeBytes (be : Bool) (n : Nat) (v : BitVec (8 * n)) : loadValue be n (storeBytes be n v) = v := by
  have h : littleNat (storeBytes false n v) = v.toNat := by
    have := littleNat_bytes v n
    have e : (2 : Nat) ^ (8 * n) = 256 ^ n := by rw [pow_mul]; norm_num
    rw [Nat.mod_eq_of_lt (by rw [← e]; exact v.isLt)] at this
    simpa [storeBytes] using this
  cases be
  · simp [loadValue, h]
  · simp [loadValue, reverse_storeBytes, h]

end Sys2Proof.Machine
end

