-- ==== Sys2Proof/Laws/Config.lean ====
section
/-! SUPPORT. The limits the launched parameters are kept within, and that admission as plain data loses no predicate. -/

namespace Sys2Proof

/-- The launched machine's extended opcodes are pairwise distinct (30_encoding.md rule R66). -/
theorem config_xo_distinct : Config.xo.Distinct := by
  unfold Config.xo
  split
  · assumption
  · decide

/-- The launched machine's text base is a multiple of 4 with room for one word below 2^64 - 4
(70_reset_and_hazards.md rule R121). -/
theorem config_textBase_limits : Config.textBase.toNat % 4 = 0 ∧ Config.textBase.toNat + 8 ≤ storageSize := by
  have key : ∀ b : Dword, (b &&& 0xFFFFFFFFFFFFFFFC#64).toNat % 4 = 0 := by
    intro b
    have h : (b &&& 0xFFFFFFFFFFFFFFFC#64).extractLsb' 0 2 = 0#2 := by
      ext i hi; interval_cases i <;> simp
    have := congrArg BitVec.toNat h
    simpa [BitVec.extractLsb'_toNat] using this
  have hk := key Config.textBaseSupplied
  unfold Config.textBase
  dsimp only
  split
  · decide
  · next hne =>
    have hne' : (Config.textBaseSupplied &&& 0xFFFFFFFFFFFFFFFC#64).toNat ≠ 18446744073709551612 :=
      fun e => hne (BitVec.eq_of_toNat_eq e)
    have hlt := (Config.textBaseSupplied &&& 0xFFFFFFFFFFFFFFFC#64).isLt
    exact ⟨hk, by unfold storageSize; omega⟩

namespace Machine

/-- Every predicate on addresses and the four operand sizes is `Admit` for some list of ranges: holding it as plain data
loses nothing (20_memory.md rule R48). -/
theorem admit_any_predicate (A : Dword → Nat → Bool) (p : Params) : ∃ l : List AdmitRange,
    ∀ (addr : Dword) (n : Nat), n ∈ [1, 2, 4, 8] → admits { p with admitted := l } addr n = A addr n := by
  have cells : ∀ N : Nat, ∃ l : List AdmitRange, ∀ r : AdmitRange, r ∈ l ↔
      ∃ a < N, ∃ n ∈ [1, 2, 4, 8], A (BitVec.ofNat 64 a) n = true ∧ r = ⟨n, a, a⟩ := fun N =>
    ⟨(List.range N).flatMap fun a => ([1, 2, 4, 8].filter fun n => A (BitVec.ofNat 64 a) n).map fun n => ⟨n, a, a⟩, by
      intro r
      simp only [List.mem_flatMap, List.mem_range, List.mem_map, List.mem_filter]
      constructor
      · rintro ⟨a, ha, n, ⟨hn, hA⟩, rfl⟩; exact ⟨a, ha, n, hn, hA, rfl⟩
      · rintro ⟨a, ha, n, hn, hA, rfl⟩; exact ⟨a, ha, n, ⟨hn, hA⟩, rfl⟩⟩
  obtain ⟨l, hl⟩ := cells storageSize
  refine ⟨l, fun addr n hn => ?_⟩
  rw [Bool.eq_iff_iff]
  simp only [admits, List.any_eq_true, decide_eq_true_eq]
  constructor
  · rintro ⟨r, hr, hs, h1, h2⟩
    obtain ⟨a, _, n', _, hA, rfl⟩ := (hl r).1 hr
    have e : BitVec.ofNat 64 a = addr := by rw [show a = addr.toNat from by simp at h1 h2; omega]; simp
    rw [← e, ← hs]; exact hA
  · intro hA
    exact ⟨⟨n, addr.toNat, addr.toNat⟩, (hl _).2 ⟨addr.toNat, addr.isLt, n, hn, by simpa using hA, rfl⟩, rfl, le_rfl, le_rfl⟩

end Machine

end Sys2Proof
end

