-- ==== Sys2Proof/Laws/Encoding.lean ====
section
/-! SUPPORT. The fields of an X-Form word: each field reads back as it was put in, and a word is made of its fields
(30_encoding.md rules R61 and R62). -/

namespace Sys2Proof

section
variable (po : BitVec 6) (rs ra rb : BitVec 5) (sh : BitVec 2) (xo : BitVec 8) (r31 : BitVec 1)

@[simp] theorem fieldPO_xForm : fieldPO (xForm po rs ra rb sh xo r31) = po := by
  unfold fieldPO xForm; ext i hi; interval_cases i <;> simp
@[simp] theorem fieldRS_xForm : fieldRS (xForm po rs ra rb sh xo r31) = rs := by
  unfold fieldRS xForm; ext i hi; interval_cases i <;> simp
@[simp] theorem fieldRA_xForm : fieldRA (xForm po rs ra rb sh xo r31) = ra := by
  unfold fieldRA xForm; ext i hi; interval_cases i <;> simp
@[simp] theorem fieldRB_xForm : fieldRB (xForm po rs ra rb sh xo r31) = rb := by
  unfold fieldRB xForm; ext i hi; interval_cases i <;> simp
@[simp] theorem fieldSH_xForm : fieldSH (xForm po rs ra rb sh xo r31) = sh := by
  unfold fieldSH xForm; ext i hi; interval_cases i <;> simp
@[simp] theorem fieldXO_xForm : fieldXO (xForm po rs ra rb sh xo r31) = xo := by
  unfold fieldXO xForm; ext i hi; interval_cases i <;> simp
@[simp] theorem fieldR31_xForm : fieldR31 (xForm po rs ra rb sh xo r31) = r31 := by
  unfold fieldR31 xForm; ext i hi; interval_cases i; simp

end

/-- A word is the X-Form of its seven fields. -/
theorem xForm_fields (w : Word) : xForm (fieldPO w) (fieldRS w) (fieldRA w) (fieldRB w) (fieldSH w) (fieldXO w)
    (fieldR31 w) = w := by
  unfold fieldPO fieldRS fieldRA fieldRB fieldSH fieldXO fieldR31 xForm
  ext i hi; interval_cases i <;> simp

@[simp] theorem regOfBits_regBits (r : RegNum) : regOfBits (regBits r) = r := by
  apply Fin.ext; simp [regOfBits, regBits]

@[simp] theorem regBits_regOfBits (b : BitVec 5) : regBits (regOfBits b) = b := by
  simp [regOfBits, regBits]

@[simp] theorem shOfBits_shBits (sh : ShSel) : shOfBits (shBits sh) = sh := by
  apply Fin.ext; simp [shOfBits, shBits]

@[simp] theorem shBits_shOfBits (b : BitVec 2) : shBits (shOfBits b) = b := by
  simp [shOfBits, shBits]

section
variable (m : Mnemonic) (rs ra rb : RegNum) (sh : ShSel)

@[simp] theorem mnemonic_instrOf : (instrOf m rs ra rb sh).mnemonic = m := by cases m <;> rfl
@[simp] theorem rs_instrOf : (instrOf m rs ra rb sh).rs = rs := by cases m <;> rfl
@[simp] theorem ra_instrOf : (instrOf m rs ra rb sh).ra = ra := by cases m <;> rfl
@[simp] theorem rb_instrOf : (instrOf m rs ra rb sh).rb = rb := by cases m <;> rfl
@[simp] theorem sh_instrOf : (instrOf m rs ra rb sh).sh = sh := by cases m <;> rfl

end

/-- An instruction is its mnemonic and its operands. -/
@[simp] theorem instrOf_parts (i : Instr) : instrOf i.mnemonic i.rs i.ra i.rb i.sh = i := by cases i <;> rfl

theorem mem_all (m : Mnemonic) : m ∈ Mnemonic.all := by cases m <;> decide

/-- A mnemonic found for an extended opcode has that extended opcode. -/
theorem get_of_xoLookup {t : XoTable} {x : BitVec 8} {m : Mnemonic} (h : xoLookup t x = some m) : t.get m = x := by
  simpa using List.find?_some h

/-- No mnemonic is found only where none has the extended opcode. -/
theorem xoLookup_eq_none {t : XoTable} {x : BitVec 8} : xoLookup t x = none ↔ ∀ m, t.get m ≠ x := by
  simp [xoLookup, mem_all]

/-- Two mnemonics with the same extended opcode are the same, where the eleven are pairwise distinct (R66). -/
theorem eq_of_get_eq {t : XoTable} (h : t.Distinct) {m m' : Mnemonic} (e : t.get m = t.get m') : m = m' :=
  List.inj_on_of_nodup_map h (mem_all m) (mem_all m') e

/-- Where the eleven extended opcodes are pairwise distinct, each finds its own mnemonic. -/
theorem xoLookup_get {t : XoTable} (h : t.Distinct) (m : Mnemonic) : xoLookup t (t.get m) = some m := by
  cases hl : xoLookup t (t.get m) with
  | none => exact absurd rfl (xoLookup_eq_none.1 hl m)
  | some m' => rw [eq_of_get_eq h (get_of_xoLookup hl)]

/-! ## Words by their fields -/

/-- Two words are equal when their seven fields are. -/
theorem word_eq_iff_fields {w v : Word} : w = v ↔ fieldPO w = fieldPO v ∧ fieldRS w = fieldRS v ∧
    fieldRA w = fieldRA v ∧ fieldRB w = fieldRB v ∧ fieldSH w = fieldSH v ∧ fieldXO w = fieldXO v ∧
    fieldR31 w = fieldR31 v := by
  constructor
  · rintro rfl; simp
  · rintro ⟨h1, h2, h3, h4, h5, h6, h7⟩
    rw [← xForm_fields w, ← xForm_fields v, h1, h2, h3, h4, h5, h6, h7]

/-- The fields of a masked word. -/
theorem fields_and (w v : Word) : fieldPO (w &&& v) = fieldPO w &&& fieldPO v ∧
    fieldRS (w &&& v) = fieldRS w &&& fieldRS v ∧ fieldRA (w &&& v) = fieldRA w &&& fieldRA v ∧
    fieldRB (w &&& v) = fieldRB w &&& fieldRB v ∧ fieldSH (w &&& v) = fieldSH w &&& fieldSH v ∧
    fieldXO (w &&& v) = fieldXO w &&& fieldXO v ∧ fieldR31 (w &&& v) = fieldR31 w &&& fieldR31 v := by
  simp [fieldPO, fieldRS, fieldRA, fieldRB, fieldSH, fieldXO, fieldR31, BitVec.extractLsb'_and]

/-- A match word is the X-Form with every operand field 0. -/
theorem matchWord_eq_xForm (t : XoTable) (m : Mnemonic) :
    matchWord t m = xForm poStshift 0#5 0#5 0#5 0#2 (t.get m) 0#1 := by
  simp [matchWord, xForm]

/-- The register number of a field is 0 exactly where the field is. -/
theorem regOfBits_eq_zero {b : BitVec 5} : regOfBits b = 0 ↔ b = 0#5 := by revert b; decide

/-- A bit that is not 1 is 0. -/
theorem bit_ne_one {b : BitVec 1} : b ≠ 1#1 ↔ b = 0#1 := by revert b; decide

/-- The reserved bit is bit 0, least significant first. -/
theorem getLsbD_zero_iff {w : Word} : w.getLsbD 0 = true ↔ fieldR31 w = 1#1 := by
  unfold fieldR31
  constructor
  · intro h; ext i hi; interval_cases i; simpa using h
  · intro h; simpa using congrArg (fun b => b.getLsbD 0) h

/-- When a word decodes to an instruction, and to which. -/
theorem decode_eq_instr {t : XoTable} {w : Word} {i : Instr} : decode t w = .instr i ↔
    fieldPO w = poStshift ∧ ∃ m, xoLookup t (fieldXO w) = some m ∧ fieldR31 w ≠ 1#1 ∧
      ¬ (m.isUpdate = true ∧ regOfBits (fieldRA w) = 0) ∧
      i = instrOf m (regOfBits (fieldRS w)) (regOfBits (fieldRA w)) (regOfBits (fieldRB w)) (shOfBits (fieldSH w)) := by
  unfold decode
  by_cases h : fieldPO w = poStshift
  · rw [if_neg (fun e => e h)]
    cases hx : xoLookup t (fieldXO w) with
    | none => simp
    | some m =>
      by_cases h31 : fieldR31 w = 1#1
      · simp [h31]
      · by_cases hu : m.isUpdate = true ∧ regOfBits (fieldRA w) = 0
        · simp [h31, hu]
        · simp [h31, hu, h]
          tauto
  · simp [h]

/-- What a decoded instruction is: well-formed. -/
theorem wellFormed_of_decode {t : XoTable} {w : Word} {i : Instr} (h : decode t w = .instr i) : i.WellFormed := by
  obtain ⟨-, m, -, -, hu, rfl⟩ := decode_eq_instr.1 h
  simpa using hu

end Sys2Proof
end

