-- ==== Sys2Proof/Laws/Memory.lean ====
section
/-! SUPPORT. The laws of storage: a byte reads as what was last written there, every operation keeps the canonical form,
and canonical memories that read the same are the same list. -/

namespace Sys2Proof.Machine

/-! ## Reading after writing -/

@[simp] theorem read_nil (a : Nat) : Memory.read [] a = unlistedByte := rfl

theorem read_cons (k a : Nat) (b : Byte) (m : Memory) :
    Memory.read ((k, b) :: m) a = if k = a then b else Memory.read m a := rfl

theorem wfFrom_cons (low k : Nat) (b : Byte) (m : Memory) : Memory.wfFrom low ((k, b) :: m) = true ↔
    low ≤ k ∧ k < storageSize ∧ b ≠ unlistedByte ∧ Memory.wfFrom (k + 1) m = true := by
  simp [Memory.wfFrom, and_assoc]

theorem wfFrom_mono {low low' : Nat} {m : Memory} (h : Memory.wfFrom low m = true) (hl : low' ≤ low) :
    Memory.wfFrom low' m = true := by
  cases m with
  | nil => rfl
  | cons c rest => obtain ⟨k, b⟩ := c; rw [wfFrom_cons] at *; exact ⟨hl.trans h.1, h.2⟩

/-- Below its first address a canonical memory reads as unlisted. -/
theorem read_below {m : Memory} : ∀ {low a : Nat}, Memory.wfFrom low m = true → a < low → m.read a = unlistedByte := by
  induction m with
  | nil => intros; rfl
  | cons c rest ih =>
    obtain ⟨k, b⟩ := c
    intro low a h ha
    rw [wfFrom_cons] at h
    rw [read_cons, if_neg (by omega)]
    exact ih h.2.2.2 (by omega)

/-- An entry put before a memory that reads as unlisted at its address. -/
theorem read_entry {m : Memory} {a : Nat} (b : Byte) (hm : m.read a = unlistedByte) (x : Nat) :
    (Memory.entry a b m).read x = if x = a then b else m.read x := by
  unfold Memory.entry
  split
  · next hb => split <;> simp_all
  · rw [read_cons]; simp only [eq_comm]

/-- Reading a canonical memory after one byte was written. -/
theorem read_write {m : Memory} (a x : Nat) (b : Byte) :
    ∀ {low : Nat}, Memory.wfFrom low m = true → (m.write a b).read x = if x = a then b else m.read x := by
  induction m with
  | nil => intro low _; exact read_entry b rfl x
  | cons c rest ih =>
    obtain ⟨k, d⟩ := c
    intro low h
    have hc := h
    rw [wfFrom_cons] at h
    unfold Memory.write
    split
    · next hlt => exact read_entry b (read_below (wfFrom_cons k k d rest |>.2 ⟨le_rfl, h.2⟩) hlt) x
    · split
      · next heq =>
        subst heq
        rw [read_entry b (read_below h.2.2.2 (by omega)) x, read_cons]
        by_cases hx : x = a
        · rw [if_pos hx, if_pos hx]
        · rw [if_neg hx, if_neg hx, if_neg (by omega)]
      · next hlt hne =>
        rw [read_cons, read_cons, ih h.2.2.2]
        split
        · next hk => rw [if_neg (by omega)]
        · rfl

/-! ## The canonical form is kept -/

theorem wfFrom_entry {m : Memory} {a low : Nat} (b : Byte) (hl : low ≤ a) (ha : a < storageSize)
    (hm : Memory.wfFrom (a + 1) m = true) : Memory.wfFrom low (Memory.entry a b m) = true := by
  unfold Memory.entry
  split
  · exact wfFrom_mono hm (by omega)
  · next hb => exact (wfFrom_cons ..).2 ⟨hl, ha, hb, hm⟩

theorem wfFrom_write {m : Memory} (a : Nat) (b : Byte) (ha : a < storageSize) :
    ∀ {low : Nat}, Memory.wfFrom low m = true → low ≤ a → Memory.wfFrom low (m.write a b) = true := by
  induction m with
  | nil => intro low _ hl; exact wfFrom_entry b hl ha rfl
  | cons c rest ih =>
    obtain ⟨k, d⟩ := c
    intro low h hl
    rw [wfFrom_cons] at h
    unfold Memory.write
    split
    · next hlt => exact wfFrom_entry b hl ha ((wfFrom_cons ..).2 ⟨hlt, h.2⟩)
    · split
      · next heq => subst heq; exact wfFrom_entry b hl ha h.2.2.2
      · next hlt hne => exact (wfFrom_cons ..).2 ⟨h.1, h.2.1, h.2.2.1, ih h.2.2.2 (by omega)⟩

/-- Writing one byte keeps the canonical form. -/
theorem wf_write {m : Memory} {a : Nat} (b : Byte) (h : m.wf = true) (ha : a < storageSize) :
    (m.write a b).wf = true := wfFrom_write a b ha h (Nat.zero_le a)

/-- Writing bytes keeps the canonical form. -/
theorem wf_writeBytes {bs : List Byte} : ∀ {m : Memory} {a : Nat}, m.wf = true → a + bs.length ≤ storageSize →
    (m.writeBytes a bs).wf = true := by
  induction bs with
  | nil => intro m a h _; exact h
  | cons b rest ih =>
    intro m a h ha
    simp only [List.length_cons] at ha
    exact ih (wf_write b h (by omega)) (by omega)

@[simp] theorem wf_nil : Memory.wf [] = true := rfl

/-- Reading a canonical memory after bytes were written: inside the written range the byte of the list, elsewhere what was
there. -/
theorem read_writeBytes {bs : List Byte} : ∀ {m : Memory} {a : Nat}, m.wf = true → a + bs.length ≤ storageSize →
    ∀ x, (m.writeBytes a bs).read x =
      if a ≤ x ∧ x < a + bs.length then bs.getD (x - a) unlistedByte else m.read x := by
  induction bs with
  | nil => intro m a _ _ x; rw [if_neg (by simp)]; rfl
  | cons b rest ih =>
    intro m a h ha x
    simp only [List.length_cons] at ha ⊢
    rw [Memory.writeBytes, ih (wf_write b h (by omega)) (by omega), read_write a x b h]
    by_cases hx : x = a
    · subst hx; simp
    · by_cases hin : a + 1 ≤ x ∧ x < a + 1 + rest.length
      · rw [if_pos hin, if_pos (by omega), show x - a = (x - (a + 1)) + 1 by omega, List.getD_cons_succ]
      · rw [if_neg hin, if_neg hx, if_neg (by omega)]

/-! ## Equal readings, equal memories -/

theorem eq_of_read_from {m : Memory} : ∀ {m' : Memory} {low : Nat}, Memory.wfFrom low m = true →
    Memory.wfFrom low m' = true → (∀ a, m.read a = m'.read a) → m = m' := by
  induction m with
  | nil =>
    intro m' low _ h' he
    cases m' with
    | nil => rfl
    | cons c rest =>
      obtain ⟨k, b⟩ := c
      rw [wfFrom_cons] at h'
      have := he k
      rw [read_cons, if_pos rfl] at this
      exact absurd this.symm h'.2.2.1
  | cons c rest ih =>
    obtain ⟨k, b⟩ := c
    intro m' low h h' he
    rw [wfFrom_cons] at h
    cases m' with
    | nil =>
      have := he k
      rw [read_cons, if_pos rfl] at this
      exact absurd this h.2.2.1
    | cons c' rest' =>
      obtain ⟨k', b'⟩ := c'
      rw [wfFrom_cons] at h'
      have hk : k = k' := by
        rcases Nat.lt_trichotomy k k' with hlt | heq | hgt
        · have := he k
          rw [read_cons, if_pos rfl, read_cons, if_neg (by omega), read_below h'.2.2.2 (by omega)] at this
          exact absurd this h.2.2.1
        · exact heq
        · have := he k'
          rw [read_cons, if_neg (by omega), read_cons, if_pos rfl, read_below h.2.2.2 (by omega)] at this
          exact absurd this.symm h'.2.2.1
      subst hk
      have hb : b = b' := by simpa [read_cons] using he k
      subst hb
      rw [ih h.2.2.2 h'.2.2.2 fun a => ?_]
      by_cases ha : k = a
      · subst ha; rw [read_below h.2.2.2 (by omega), read_below h'.2.2.2 (by omega)]
      · simpa [read_cons, ha] using he a

/-- Canonical memories that read the same at every address are equal. -/
theorem eq_of_read {m m' : Memory} (h : m.wf = true) (h' : m'.wf = true) (he : ∀ a, m.read a = m'.read a) : m = m' :=
  eq_of_read_from h h' he

/-! ## Reading several bytes -/

@[simp] theorem length_readBytes (m : Memory) (a n : Nat) : (m.readBytes a n).length = n := by
  simp [Memory.readBytes]

theorem getElem_readBytes (m : Memory) (a n i : Nat) (h : i < (m.readBytes a n).length) :
    (m.readBytes a n)[i] = m.read (a + i) := by simp [Memory.readBytes]

/-- What `n` addresses read as depends only on those addresses. -/
theorem readBytes_congr {m m' : Memory} {a n : Nat} (h : ∀ x, a ≤ x → x < a + n → m.read x = m'.read x) :
    m.readBytes a n = m'.readBytes a n := by
  refine List.map_congr_left fun i hi => h _ (by omega) ?_
  have := List.mem_range.1 hi
  omega

/-- Reading the range that was just written gives the bytes written. -/
theorem readBytes_writeBytes {m : Memory} {a : Nat} {bs : List Byte} (hm : m.wf = true)
    (h : a + bs.length ≤ storageSize) : (m.writeBytes a bs).readBytes a bs.length = bs := by
  apply List.ext_getElem
  · simp
  · intro i h1 h2
    rw [getElem_readBytes, read_writeBytes hm h, if_pos (by omega)]
    simp [List.getD_eq_getElem?_getD, h2]

/-- A range is read in two parts. -/
theorem readBytes_add (m : Memory) (a n k : Nat) : m.readBytes a (n + k) = m.readBytes a n ++ m.readBytes (a + n) k := by
  unfold Memory.readBytes
  rw [List.range_add, List.map_append, List.map_map]
  congr 1
  exact List.map_congr_left fun i _ => by simp [Nat.add_assoc]

end Sys2Proof.Machine
end

