-- ==== Sys2Proof/Laws/Operands.lean ====
section
/-! SUPPORT. The scaled index as a number, and the bytes of the values stored. -/

namespace Sys2Proof.Machine

theorem toNat_shl64 (x : Dword) (n : Nat) : (shl64 x n).toNat = x.toNat * 2 ^ n % 2 ^ 64 := by
  simp [shl64, Nat.shiftLeft_eq]

theorem byteAt_lowBytes {n k : Nat} (v : Dword) (h : k < n) : byteAt (lowBytes n v) k = byteAt v k := by
  unfold byteAt lowBytes
  ext j hj
  simp [show 8 * k + j < 8 * n by omega]

theorem byteAt_reverseHalf {k : Nat} (v : Dword) (h : k < 2) : byteAt (reverseHalf v) k = byteAt v (1 - k) := by
  unfold reverseHalf
  rw [byteAt_append]
  interval_cases k <;> simp [byteAt_byte]

theorem byteAt_reverseWord {k : Nat} (v : Dword) (h : k < 4) : byteAt (reverseWord v) k = byteAt v (3 - k) := by
  unfold reverseWord
  rw [byteAt_append]
  interval_cases k <;> simp [byteAt_append, byteAt_byte]

theorem byteAt_reverseDword {k : Nat} (v : Dword) (h : k < 8) : byteAt (reverseDword v) k = byteAt v (7 - k) := by
  unfold reverseDword
  rw [byteAt_append]
  interval_cases k <;> simp [byteAt_append, byteAt_byte]

end Sys2Proof.Machine
end

