-- ==== Sys2Proof/Laws/State.lean ====
section
/-! SUPPORT. One lemma per field per update of the state, and reading a register after writing one. -/

namespace Sys2Proof.Machine

variable (s : State) (r r' : RegNum) (v : Dword) (m : Memory) (o : RunOutcome)

@[simp] theorem writeGpr_pc : (s.writeGpr r v).pc = s.pc := rfl
@[simp] theorem writeGpr_mem : (s.writeGpr r v).mem = s.mem := rfl
@[simp] theorem writeGpr_outcome : (s.writeGpr r v).outcome = s.outcome := rfl
@[simp] theorem writeGpr_params : (s.writeGpr r v).params = s.params := rfl
@[simp] theorem writeGpr_gpr : (s.writeGpr r v).gpr = s.gpr.set r.val v r.isLt := rfl

@[simp] theorem advancePc_gpr : s.advancePc.gpr = s.gpr := rfl
@[simp] theorem advancePc_pc : s.advancePc.pc = s.pc + 4#64 := rfl
@[simp] theorem advancePc_mem : s.advancePc.mem = s.mem := rfl
@[simp] theorem advancePc_outcome : s.advancePc.outcome = s.outcome := rfl
@[simp] theorem advancePc_params : s.advancePc.params = s.params := rfl

@[simp] theorem withMem_gpr : (s.withMem m).gpr = s.gpr := rfl
@[simp] theorem withMem_pc : (s.withMem m).pc = s.pc := rfl
@[simp] theorem withMem_mem : (s.withMem m).mem = m := rfl
@[simp] theorem withMem_outcome : (s.withMem m).outcome = s.outcome := rfl
@[simp] theorem withMem_params : (s.withMem m).params = s.params := rfl

@[simp] theorem withOutcome_gpr : (s.withOutcome o).gpr = s.gpr := rfl
@[simp] theorem withOutcome_pc : (s.withOutcome o).pc = s.pc := rfl
@[simp] theorem withOutcome_mem : (s.withOutcome o).mem = s.mem := rfl
@[simp] theorem withOutcome_outcome : (s.withOutcome o).outcome = o := rfl
@[simp] theorem withOutcome_params : (s.withOutcome o).params = s.params := rfl

@[simp] theorem readGpr_advancePc : s.advancePc.readGpr r = s.readGpr r := rfl
@[simp] theorem readGpr_withMem : (s.withMem m).readGpr r = s.readGpr r := rfl
@[simp] theorem readGpr_withOutcome : (s.withOutcome o).readGpr r = s.readGpr r := rfl

@[simp] theorem writeGpr_withMem : (s.withMem m).writeGpr r v = (s.writeGpr r v).withMem m := rfl

/-- A register reads as what was last written to it; writing one leaves the others alone. -/
theorem readGpr_writeGpr_eq_ite : (s.writeGpr r v).readGpr r' = if r' = r then v else s.readGpr r' := by
  by_cases h : r' = r
  · subst h; simp [State.readGpr]
  · have h' : ¬ r.val = r'.val := fun e => h (Fin.ext e.symm)
    simp [State.readGpr, h, h']

/-- Two states are equal when their five fields are. -/
theorem state_eq_of_fields {s t : State} (hg : s.gpr = t.gpr) (hp : s.pc = t.pc) (hm : s.mem = t.mem)
    (ho : s.outcome = t.outcome) (hq : s.params = t.params) : s = t := by
  cases s; cases t; simp_all

end Sys2Proof.Machine
end

