-- ==== Sys2Proof/Laws/Exec.lean ====
section
/-! SUPPORT. What each shared operation and each instruction can do, said once: the checks of `MemWrite`, the two shapes of
a store, and `exec` of every instruction as one of the two. -/

namespace Sys2Proof.Machine

/-! ## Sequencing -/

section
variable {α β : Type} {o : Host.Outcome α Fault Refusal} {k : α → Host.Outcome β Fault Refusal}

@[simp] theorem andThen_next (a : α) : andThen (.next a) k = k a := rfl
@[simp] theorem andThen_fault (f : Fault) : andThen (.fault f : Host.Outcome α Fault Refusal) k = .fault f := rfl
@[simp] theorem andThen_refused (r : Refusal) : andThen (.refused r : Host.Outcome α Fault Refusal) k = .refused r := rfl

theorem andThen_eq_next {b : β} : andThen o k = .next b ↔ ∃ a, o = .next a ∧ k a = .next b := by
  cases o <;> simp

end

/-! ## The checks of MemWrite -/

variable {s t : State} {addr : Dword} {n : Nat}

/-- The checks pass exactly where the store is performed. -/
theorem storeCheck_eq_next : storeCheck s addr n = .next () ↔ StoreOk s addr n := by
  unfold storeCheck StoreOk
  cases hm : s.params.misalign <;> cases ha : admits s.params addr n <;> cases ho : meetsText s.params addr n <;>
    by_cases hw : storageSize < addr.toNat + n <;> by_cases hz : addr.toNat % n = 0 <;>
    simp [hw, hz] <;> omega

theorem storeCheck_of_ok (h : StoreOk s addr n) : storeCheck s addr n = .next () := storeCheck_eq_next.2 h

/-- The checks look at the parameters and, for the info they record, at `pc`. -/
theorem storeCheck_congr (hp : s.params = t.params) (hc : s.pc = t.pc) : storeCheck s addr n = storeCheck t addr n := by
  simp [storeCheck, hp, hc]

/-- Whether a store is performed looks at the parameters alone. -/
theorem storeOk_congr (hp : s.params = t.params) : StoreOk s addr n ↔ StoreOk t addr n := by
  simp [StoreOk, hp]

/-- What the checks can answer, each with its cause: nothing to stop, or one of the five stops with the address, the size
and `pc`. -/
theorem storeCheck_cases (s : State) (addr : Dword) (n : Nat) :
    storeCheck s addr n = .next () ∨
      (storeCheck s addr n = .refused (.addressWrap addr s.pc) ∧ storageSize < addr.toNat + n) ∨
      (storeCheck s addr n = .fault (.alignmentFault addr n s.pc) ∧ addr.toNat % n ≠ 0 ∧ s.params.misalign = .fault) ∨
      (storeCheck s addr n = .refused (.misalignedRefused addr n s.pc) ∧ addr.toNat % n ≠ 0 ∧
        s.params.misalign = .refuse) ∨
      (storeCheck s addr n = .fault (.storageFault addr n s.pc) ∧ admits s.params addr n = false) ∨
      (storeCheck s addr n = .refused (.textOverwritten addr n s.pc) ∧ meetsText s.params addr n = true) := by
  unfold storeCheck
  split_ifs with h1 h2 h3 h4 h5
  · exact .inr (.inl ⟨rfl, h1⟩)
  · exact .inr (.inr (.inl ⟨rfl, h2⟩))
  · exact .inr (.inr (.inr (.inl ⟨rfl, h3⟩)))
  · exact .inr (.inr (.inr (.inr (.inl ⟨rfl, h4⟩))))
  · exact .inr (.inr (.inr (.inr (.inr ⟨rfl, h5⟩))))
  · exact .inl rfl

/-- The operand meets the text exactly where some address lies in both (20_memory.md rule R55). -/
theorem meetsText_iff {p : Params} : meetsText p addr n = true ↔ ∃ a, addr.toNat ≤ a ∧ a < addr.toNat + n ∧
    p.textBase.toNat ≤ a ∧ a < textEnd p := by
  unfold meetsText
  rw [decide_eq_true_eq]
  constructor
  · intro h; exact ⟨_, le_max_left _ _, by omega, le_max_right _ _, by omega⟩
  · rintro ⟨a, h1, h2, h3, h4⟩; omega

/-! ## MemWrite and the two shapes of a store -/

/-- Storage after the n bytes of `v` were written at `addr`. -/
def memAfter (s : State) (addr : Dword) (n : Nat) (v : BitVec (8 * n)) : Memory :=
  s.mem.writeBytes addr.toNat (storeBytes s.params.bigEndian n v)

theorem memWrite_eq_next {v : BitVec (8 * n)} :
    memWrite s addr n v = .next t ↔ StoreOk s addr n ∧ t = s.withMem (memAfter s addr n v) := by
  simp only [memWrite, andThen_eq_next, memAfter]
  constructor
  · rintro ⟨_, h, e⟩; cases e; exact ⟨storeCheck_eq_next.1 h, rfl⟩
  · rintro ⟨h, rfl⟩; exact ⟨(), storeCheck_eq_next.2 h, rfl⟩

theorem memWrite_of_ok (v : BitVec (8 * n)) (h : StoreOk s addr n) :
    memWrite s addr n v = .next (s.withMem (memAfter s addr n v)) := memWrite_eq_next.2 ⟨h, rfl⟩

theorem storeIndexed_eq_next {v : BitVec (8 * n)} : storeIndexed s addr n v = .next t ↔
    StoreOk s addr n ∧ t = (s.withMem (memAfter s addr n v)).advancePc := by
  simp only [storeIndexed, andThen_eq_next, memWrite_eq_next]
  constructor
  · rintro ⟨_, ⟨h, rfl⟩, e⟩; cases e; exact ⟨h, rfl⟩
  · rintro ⟨h, rfl⟩; exact ⟨_, ⟨h, rfl⟩, rfl⟩

theorem storeUpdate_eq_next {v : BitVec (8 * n)} {w : Word} {ra : RegNum} : storeUpdate s w ra addr n v = .next t ↔
    ra ≠ 0 ∧ StoreOk s addr n ∧ t = ((s.withMem (memAfter s addr n v)).writeGpr ra addr).advancePc := by
  unfold storeUpdate
  by_cases h0 : ra = 0
  · simp [h0]
  · rw [if_neg h0]
    simp only [andThen_eq_next, memWrite_eq_next]
    constructor
    · rintro ⟨_, ⟨h, rfl⟩, e⟩; cases e; exact ⟨h0, h, rfl⟩
    · rintro ⟨-, h, rfl⟩; exact ⟨_, ⟨h, rfl⟩, rfl⟩

/-! ## Every instruction -/

/-- The value an instruction hands to `MemWrite` (20_memory.md rule R43). -/
def operandValue (i : Instr) (s : State) : BitVec (8 * operandSize i.mnemonic) :=
  match i with
  | .stbsx rs _ _ _ | .stbsux rs _ _ _ => lowBytes 1 (s.readGpr rs)
  | .sthsx rs _ _ _ | .sthsux rs _ _ _ => lowBytes 2 (s.readGpr rs)
  | .stwsx rs _ _ _ | .stwsux rs _ _ _ => lowBytes 4 (s.readGpr rs)
  | .stdsx rs _ _ _ | .stdsux rs _ _ _ => lowBytes 8 (s.readGpr rs)
  | .sthbrsx rs _ _ _ => reverseHalf (s.readGpr rs)
  | .stwbrsx rs _ _ _ => reverseWord (s.readGpr rs)
  | .stdbrsx rs _ _ _ => reverseDword (s.readGpr rs)

/-- `exec` of every instruction is one of the two shapes of a store. -/
theorem exec_shape (i : Instr) (s : State) : exec i s =
    if i.mnemonic.isUpdate = true then
      storeUpdate s (encode s.params.xo i) i.ra (operandAddress i s) (operandSize i.mnemonic) (operandValue i s)
    else storeIndexed s (operandAddress i s) (operandSize i.mnemonic) (operandValue i s) := by
  cases i <;> rfl

/-- Storage after an instruction's store. -/
def memAfterInstr (i : Instr) (s : State) : Memory :=
  memAfter s (operandAddress i s) (operandSize i.mnemonic) (operandValue i s)

/-- The next state of an instruction whose store is performed. -/
def stateAfter (i : Instr) (s : State) : State :=
  if i.mnemonic.isUpdate = true then
    ((s.withMem (memAfterInstr i s)).writeGpr i.ra (operandAddress i s)).advancePc
  else (s.withMem (memAfterInstr i s)).advancePc

/-- When an instruction answers a next state, and which one. -/
theorem exec_eq_next {i : Instr} : exec i s = .next t ↔
    i.WellFormed ∧ StoreOk s (operandAddress i s) (operandSize i.mnemonic) ∧ t = stateAfter i s := by
  rw [exec_shape]
  unfold stateAfter Instr.WellFormed memAfterInstr
  by_cases h : i.mnemonic.isUpdate = true
  · rw [if_pos h, if_pos h, storeUpdate_eq_next]; simp [h]
  · rw [if_neg h, if_neg h, storeIndexed_eq_next]; simp [h]

/-- An instruction that answers no next state: the invalid form, or the stop its store's checks answer. -/
theorem exec_stop (i : Instr) (s : State) : exec i s =
    if i.mnemonic.isUpdate = true ∧ i.ra = 0 then .fault (.invalidForm (encode s.params.xo i) s.pc)
    else andThen (storeCheck s (operandAddress i s) (operandSize i.mnemonic)) fun _ => .next (stateAfter i s) := by
  rw [exec_shape]
  unfold stateAfter memAfterInstr memAfter
  by_cases h : i.mnemonic.isUpdate = true
  · rw [if_pos h, if_pos h]
    by_cases h0 : i.ra = 0
    · simp [storeUpdate, h0, h]
    · rw [if_neg (fun e => h0 e.2)]
      unfold storeUpdate memWrite; rw [if_neg h0]
      cases storeCheck s (operandAddress i s) (operandSize i.mnemonic) <;> rfl
  · rw [if_neg h, if_neg h, if_neg (fun e => h e.1)]
    unfold storeIndexed memWrite
    cases storeCheck s (operandAddress i s) (operandSize i.mnemonic) <;> rfl

/-- What an instruction leaves unchanged, whatever it is: the outcome and the parameters; and where `pc` goes. -/
@[simp] theorem stateAfter_outcome (i : Instr) (s : State) : (stateAfter i s).outcome = s.outcome := by
  unfold stateAfter; split <;> rfl
@[simp] theorem stateAfter_params (i : Instr) (s : State) : (stateAfter i s).params = s.params := by
  unfold stateAfter; split <;> rfl
@[simp] theorem stateAfter_pc (i : Instr) (s : State) : (stateAfter i s).pc = s.pc + 4#64 := by
  unfold stateAfter; split <;> rfl
@[simp] theorem stateAfter_mem (i : Instr) (s : State) : (stateAfter i s).mem = memAfterInstr i s := by
  unfold stateAfter; split <;> rfl

/-- The registers after an instruction's store: only RA of an update form changes. -/
theorem stateAfter_readGpr (i : Instr) (s : State) (r : RegNum) : (stateAfter i s).readGpr r =
    if i.mnemonic.isUpdate = true ∧ r = i.ra then operandAddress i s else s.readGpr r := by
  unfold stateAfter
  by_cases h : i.mnemonic.isUpdate = true
  · simp [h, readGpr_writeGpr_eq_ite]
  · simp [h]

/-! ## Storage after a store -/

/-- A byte of storage after a performed store: inside the operand the byte that the run's order puts there, elsewhere what
was there. -/
theorem read_memAfter {v : BitVec (8 * n)} (hm : s.mem.wf = true) (hw : addr.toNat + n ≤ storageSize) (a : Nat) :
    (memAfter s addr n v).read a = if addr.toNat ≤ a ∧ a < addr.toNat + n then
      byteAt v (if s.params.bigEndian then n - 1 - (a - addr.toNat) else a - addr.toNat) else s.mem.read a := by
  unfold memAfter
  rw [read_writeBytes hm (by simpa using hw), length_storeBytes]
  split
  · rw [getD_storeBytes]; omega
  · rfl

theorem wf_memAfter (v : BitVec (8 * n)) (hm : s.mem.wf = true) (hw : addr.toNat + n ≤ storageSize) :
    (memAfter s addr n v).wf = true := wf_writeBytes hm (by simpa using hw)

/-! ## Storage after an instruction -/

theorem operandSize_mem (m : Mnemonic) : operandSize m ∈ [1, 2, 4, 8] := by cases m <;> simp [operandSize]

/-- The value handed to `MemWrite`, byte by byte as it stands in the operand. -/
theorem byteAt_operandValue (i : Instr) (s : State) {k : Nat} (h : k < operandSize i.mnemonic) :
    byteAt (operandValue i s) (if s.params.bigEndian then operandSize i.mnemonic - 1 - k else k) = operandByte i s k := by
  have hlt : ∀ m, k < m → (if s.params.bigEndian then m - 1 - k else k) < m := by intro m hm; split <;> omega
  cases i <;> simp only [Instr.mnemonic, operandSize] at h <;>
    simp only [operandValue, operandByte, Instr.mnemonic, operandSize, Instr.rs, isByteReverse]
  all_goals first
    | rw [byteAt_lowBytes _ (hlt _ h)]
    | rw [byteAt_reverseHalf _ (hlt _ h)]
    | rw [byteAt_reverseWord _ (hlt _ h)]
    | rw [byteAt_reverseDword _ (hlt _ h)]
  all_goals (congr 1; cases s.params.bigEndian <;> simp <;> try omega)

/-- Storage after a performed store of an instruction. -/
theorem writesExactly_stateAfter (i : Instr) (hm : s.mem.wf = true)
    (ok : StoreOk s (operandAddress i s) (operandSize i.mnemonic)) :
    WritesExactly s (stateAfter i s) (operandAddress i s) (operandSize i.mnemonic) (operandByte i s) := by
  intro a
  rw [stateAfter_mem, memAfterInstr, read_memAfter hm ok.1]
  split
  · rw [byteAt_operandValue]; omega
  · rfl

theorem wf_stateAfter (i : Instr) (hm : s.mem.wf = true)
    (ok : StoreOk s (operandAddress i s) (operandSize i.mnemonic)) : (stateAfter i s).mem.wf = true := by
  rw [stateAfter_mem]; exact wf_memAfter _ hm ok.1

end Sys2Proof.Machine
end

