-- ==== Sys2Proof/Laws/PerInstr.lean ====
section
/-! SUPPORT. The family EncodedFields: for each instruction, its encoded word carries every field of the X-Form
(30_encoding.md rules R61 and R62), whatever the extended opcodes are. -/

namespace Sys2Proof.Laws

/-- The fields of the encoded word are PO = 31, the four operands, the instruction's extended opcode and bit 31 = 0. -/
def EncodedFields.Statement (i : Instr) : Prop :=
  ∀ t : XoTable, fieldPO (encode t i) = poStshift ∧ regOfBits (fieldRS (encode t i)) = i.rs ∧
    regOfBits (fieldRA (encode t i)) = i.ra ∧ regOfBits (fieldRB (encode t i)) = i.rb ∧
    shOfBits (fieldSH (encode t i)) = i.sh ∧ fieldXO (encode t i) = t.get i.mnemonic ∧ fieldR31 (encode t i) = 0#1

/-- The reason, once for all constructors. -/
theorem encoded_fields (i : Instr) : EncodedFields.Statement i := fun t => by simp [encode]

variable (rs ra rb : RegNum) (sh : ShSel)

theorem EncodedFields.stbsx : EncodedFields.Statement (.stbsx rs ra rb sh) := encoded_fields _
theorem EncodedFields.stbsux : EncodedFields.Statement (.stbsux rs ra rb sh) := encoded_fields _
theorem EncodedFields.sthsx : EncodedFields.Statement (.sthsx rs ra rb sh) := encoded_fields _
theorem EncodedFields.sthsux : EncodedFields.Statement (.sthsux rs ra rb sh) := encoded_fields _
theorem EncodedFields.stwsx : EncodedFields.Statement (.stwsx rs ra rb sh) := encoded_fields _
theorem EncodedFields.stwsux : EncodedFields.Statement (.stwsux rs ra rb sh) := encoded_fields _
theorem EncodedFields.stdsx : EncodedFields.Statement (.stdsx rs ra rb sh) := encoded_fields _
theorem EncodedFields.stdsux : EncodedFields.Statement (.stdsux rs ra rb sh) := encoded_fields _
theorem EncodedFields.sthbrsx : EncodedFields.Statement (.sthbrsx rs ra rb sh) := encoded_fields _
theorem EncodedFields.stwbrsx : EncodedFields.Statement (.stwbrsx rs ra rb sh) := encoded_fields _
theorem EncodedFields.stdbrsx : EncodedFields.Statement (.stdbrsx rs ra rb sh) := encoded_fields _

end Sys2Proof.Laws
end

