-- ==== Sys2Proof/Laws/Step.lean ====
section
/-! SUPPORT. What one step can do, said once. -/

namespace Sys2Proof.Machine

variable {s t : State}

/-- A step that answers a next state: the end of the text reached, or an instruction executed. -/
theorem step_eq_next : step s = .next t ↔ s.outcome = .running ∧ s.params.otherAgents = 0 ∧
    ((atTextEnd s = true ∧ t = s.withOutcome .exited) ∨
      (atTextEnd s = false ∧ pcAtTop s = false ∧
        ∃ i, decode s.params.xo (fetchWord s) = .instr i ∧ exec i s = .next t)) := by
  unfold step runCycle
  cases ho : s.outcome <;> simp
  by_cases hz : s.params.otherAgents = 0 <;> simp [hz]
  by_cases he : atTextEnd s = true <;> simp [he]
  · exact eq_comm
  by_cases hp : pcAtTop s = true <;> simp [hp]
  cases hd : decode s.params.xo (fetchWord s) with
  | instr i => simp
  | reject r => cases r <;> simp [rejectOutcome]

/-- The step of a running single-agent state whose word decodes is the instruction. -/
theorem step_of_decode {i : Instr} (ho : s.outcome = .running) (ha : s.params.otherAgents = 0) (he : atTextEnd s = false)
    (hp : pcAtTop s = false) (hd : decode s.params.xo (fetchWord s) = .instr i) : step s = exec i s := by
  simp [step, runCycle, ho, ha, he, hp, hd]

/-- What a step of a running single-agent machine can do: exit, be refused at the top of the address space, reject the word,
or execute a well-formed instruction. -/
theorem step_cases (ho : s.outcome = .running) (ha : s.params.otherAgents = 0) :
    (s.pc.toNat = textEnd s.params ∧ step s = .next (s.withOutcome .exited)) ∨
    (storageSize ≤ s.pc.toNat + 4 ∧ step s = .refused (.addressWrap s.pc s.pc)) ∨
    (∃ r, decode s.params.xo (fetchWord s) = .reject r ∧ step s = rejectOutcome r (fetchWord s) s.pc) ∨
    (∃ i, decode s.params.xo (fetchWord s) = .instr i ∧ i.WellFormed ∧ s.pc.toNat ≠ textEnd s.params ∧
      s.pc.toNat + 4 < storageSize ∧ step s =
        andThen (storeCheck s (operandAddress i s) (operandSize i.mnemonic)) fun _ => .next (stateAfter i s)) := by
  by_cases h1 : atTextEnd s = true
  · exact .inl ⟨of_decide_eq_true h1, by simp [step, runCycle, ho, ha, h1]⟩
  by_cases h2 : pcAtTop s = true
  · exact .inr (.inl ⟨of_decide_eq_true h2, by simp [step, runCycle, ho, ha, h1, h2]⟩)
  cases hd : decode s.params.xo (fetchWord s) with
  | reject r => exact .inr (.inr (.inl ⟨r, rfl, by simp [step, runCycle, ho, ha, h1, h2, hd]⟩))
  | instr i =>
    have hw := wellFormed_of_decode hd
    refine .inr (.inr (.inr ⟨i, rfl, hw, fun e => h1 (decide_eq_true e), ?_, ?_⟩))
    · by_contra hc; exact h2 (decide_eq_true (by omega))
    · rw [step_of_decode ho ha (by simpa using h1) (by simpa using h2) hd, exec_stop, if_neg hw]

end Sys2Proof.Machine
end

