-- ==== Sys2Proof/Tests/Slice0.lean ====
section
/-! SUPPORT. The model's own tests: expected results are the vectors of spec/95_test_vectors.md and the examples of the
instruction rules; then one witness per statement that has hypotheses. The extended opcodes below are for illustration
only: the spec leaves them open (30_encoding.md rule R66). -/

namespace Sys2Proof.Tests

open Sys2Proof.Machine

/-! ## A small machine -/

/-- Eleven distinct extended opcodes, for illustration only. -/
def demoXo : XoTable := ⟨0x12, 0x13, 0x21, 0xFF, 0x41, 0x42, 0x81, 0x34, 0x23, 0x56, 0x83⟩

/-- `Admit` true everywhere. -/
def everywhere : List AdmitRange := [1, 2, 4, 8].map fun n => ⟨n, 0, 2 ^ 64⟩

/-- `Admit(a, n) = (0x1000 <= a and a + n <= 0x2000)`, the platform of vector X1. -/
def window : List AdmitRange := [1, 2, 4, 8].map fun n => ⟨n, 0x1000, 0x2000 - n⟩

def demoParams (be : Bool) (mis : Misalign) : Params where
  bigEndian := be
  misalign := mis
  admitted := everywhere
  textBase := 0x10000#64
  text := []
  xo := demoXo
  otherAgents := 0

/-- Registers that are 0 but for the listed ones. -/
def regs (rs : List (RegNum × Dword)) : Vector Dword 32 :=
  rs.foldl (fun g p => g.set p.1.val p.2 p.1.isLt) (Vector.replicate 32 0#64)

/-- A launched machine without a text. -/
def demo (be : Bool) (mis : Misalign) (rs : List (RegNum × Dword)) : State := launch (demoParams be mis) (regs rs) []

/-- A launched machine with a text, big-endian and `perform`. -/
def prog (rs : List (RegNum × Dword)) (text : List Word) : State :=
  launch { demoParams true .perform with text := text } (regs rs) []

def nextOf : Host.Outcome State Fault Refusal → Option State
  | .next s => some s
  | _ => none

def faultOf : Host.Outcome State Fault Refusal → Option Fault
  | .fault f => some f
  | _ => none

def refusalOf : Host.Outcome State Fault Refusal → Option Refusal
  | .refused r => some r
  | _ => none

/-- The bytes at `a`.. and the value of register `r` after `exec i`. -/
def after (i : Instr) (s : State) (a n : Nat) (r : RegNum) : Option (List Byte × Dword × Dword) :=
  (nextOf (exec i s)).map fun t => (t.mem.readBytes a n, t.readGpr r, t.pc)

/-- `0x0123456789ABCDEF`, the value `V` of the vectors. -/
abbrev V : Dword := 0x0123456789ABCDEF#64

/-- `r3 = 1000, r4 = 10, r5 = r6 = V` (the instruction rules' examples). -/
def ex (be : Bool) : State := demo be .perform [(3, 0x1000), (4, 0x10), (5, V), (6, V)]

/-! ## WellFormed refuses each ill-formed term (R69) -/

theorem test_wf_stbsux : ¬ (Instr.stbsux 5 0 4 0).WellFormed := by decide
theorem test_wf_sthsux : ¬ (Instr.sthsux 5 0 4 1).WellFormed := by decide
theorem test_wf_stwsux : ¬ (Instr.stwsux 5 0 4 2).WellFormed := by decide
theorem test_wf_stdsux : ¬ (Instr.stdsux 5 0 4 3).WellFormed := by decide
theorem test_wf_base_zero_without_update : (Instr.stbsx 5 0 4 0).WellFormed := by decide

/-! ## Decoding, one word per constructor: base words as in 95_test_vectors.md section 2.6, plus XO << 1 -/

theorem test_decode_stbsx : decode demoXo 0x7CA32024#32 = .instr (.stbsx 5 3 4 0) := by decide
theorem test_decode_stbsux : decode demoXo 0x7D4B6626#32 = .instr (.stbsux 10 11 12 3) := by decide
theorem test_decode_sthsx : decode demoXo 0x7CA32042#32 = .instr (.sthsx 5 3 4 0) := by decide
theorem test_decode_sthsux : decode demoXo 0x7D4B61FE#32 = .instr (.sthsux 10 11 12 0) := by decide
theorem test_decode_stwsx : decode demoXo 0x7FFFFE82#32 = .instr (.stwsx 31 31 31 3) := by decide
theorem test_decode_stwsux : decode demoXo 0x7D6B6284#32 = .instr (.stwsux 11 11 12 1) := by decide
theorem test_decode_stdsx : decode demoXo 0x7CA32502#32 = .instr (.stdsx 5 3 4 2) := by decide
theorem test_decode_stdsux : decode demoXo 0x7CE11468#32 = .instr (.stdsux 7 1 2 2) := by decide
theorem test_decode_sthbrsx : decode demoXo 0x7CC32046#32 = .instr (.sthbrsx 6 3 4 0) := by decide
theorem test_decode_stwbrsx : decode demoXo 0x7CC322AC#32 = .instr (.stwbrsx 6 3 4 1) := by decide
theorem test_decode_stdbrsx : decode demoXo 0x7CC32506#32 = .instr (.stdbrsx 6 3 4 2) := by decide

/-- X10, X11, X12 and U6: words the decoder rejects, each by its name. -/
theorem test_decode_rejects : decode demoXo 0x60000000#32 = .reject .notInScope ∧
    decode demoXo 0x7C000000#32 = .reject .notInScope ∧ decode demoXo 0x7CA32025#32 = .reject .reservedBitSet ∧
    decode demoXo 0x7CA02026#32 = .reject .invalidForm := by decide

/-- Section 2.6: field extraction from 7D4B67FE and 7C0001FF. -/
theorem test_fields : fieldPO 0x7D4B67FE#32 = 31 ∧ fieldRS 0x7D4B67FE#32 = 10 ∧ fieldRA 0x7D4B67FE#32 = 11 ∧
    fieldRB 0x7D4B67FE#32 = 12 ∧ fieldSH 0x7D4B67FE#32 = 3 ∧ fieldXO 0x7D4B67FE#32 = 0xFF ∧ fieldR31 0x7D4B67FE#32 = 0 ∧
    fieldPO 0x7C0001FF#32 = 31 ∧ fieldRS 0x7C0001FF#32 = 0 ∧ fieldRA 0x7C0001FF#32 = 0 ∧ fieldRB 0x7C0001FF#32 = 0 ∧
    fieldSH 0x7C0001FF#32 = 0 ∧ fieldXO 0x7C0001FF#32 = 0xFF ∧ fieldR31 0x7C0001FF#32 = 1 := by decide

/-- Section 2.6: the bytes of 7CA32000 in storage, both orders. -/
theorem test_word_bytes : storeBytes true 4 0x7CA32000#32 = [0x7C, 0xA3, 0x20, 0x00] ∧
    storeBytes false 4 0x7CA32000#32 = [0x00, 0x20, 0xA3, 0x7C] := by decide

/-- R73: the assembler lines of `stwsx r5,r3,r4,1` and of a base of zero. -/
theorem test_assembler_lines : assemblerLine (.stwsx 5 3 4 1) = "stwsx 5,3,4,1" ∧
    assemblerLine (.stdbrsx 31 0 10 3) = "stdbrsx 31,0,10,3" := by decide

/-! ## Effective addresses (section 2.1) -/

/-- EA of `stbsx r5,r3,r4,sh`. -/
def eaOf (b x : Dword) (sh : ShSel) : Dword := eaIndexed (demo true .perform [(3, b), (4, x)]) 3 4 sh

theorem test_ea_scales : [eaOf 0x1000 0x10 0, eaOf 0x1000 0x10 1, eaOf 0x1000 0x10 2, eaOf 0x1000 0x10 3] =
    [0x1020, 0x1040, 0x1080, 0x1100] := by decide
theorem test_ea_wraps : [eaOf 0x2000 0xFFFFFFFFFFFFFFFE 3, eaOf 0xFFFFFFFFFFFFFFFF 1 0,
    eaOf 0x8000000000000000 0x8000000000000000 0, eaOf 0x10 0x1000000000000001 3, eaOf 0xFFFFFFFFFFFFFFF8 1 2] =
    [0x1FE0, 1, 0x8000000000000000, 0x20, 0] := by decide
/-- E6: RA = 0 does not read `GPR[0]`. -/
theorem test_ea_base_zero : eaIndexed (demo true .perform [(0, 0x5555), (4, 7)]) 0 4 0 = 0xE := by decide

/-! ## Stored bytes (sections 2.2 to 2.4), both byte orders, with the register that may change and `pc` -/

theorem test_stbsx : after (.stbsx 5 3 4 0) (ex true) 0x101F 3 3 = some ([0, 0xEF, 0], 0x1000, 0x10004) ∧
    after (.stbsx 5 3 4 0) (ex false) 0x101F 3 3 = some ([0, 0xEF, 0], 0x1000, 0x10004) := by decide
theorem test_sthsx : after (.sthsx 5 3 4 0) (ex true) 0x1020 3 3 = some ([0xCD, 0xEF, 0], 0x1000, 0x10004) ∧
    after (.sthsx 5 3 4 0) (ex false) 0x1020 3 3 = some ([0xEF, 0xCD, 0], 0x1000, 0x10004) := by decide
theorem test_stwsx : after (.stwsx 5 3 4 1) (ex true) 0x1040 4 3 = some ([0x89, 0xAB, 0xCD, 0xEF], 0x1000, 0x10004) ∧
    after (.stwsx 5 3 4 1) (ex false) 0x1040 4 3 = some ([0xEF, 0xCD, 0xAB, 0x89], 0x1000, 0x10004) := by decide
theorem test_stdsx : after (.stdsx 5 3 4 2) (ex true) 0x1080 8 3 =
      some ([0x01, 0x23, 0x45, 0x67, 0x89, 0xAB, 0xCD, 0xEF], 0x1000, 0x10004) ∧
    after (.stdsx 5 3 4 2) (ex false) 0x1080 8 3 =
      some ([0xEF, 0xCD, 0xAB, 0x89, 0x67, 0x45, 0x23, 0x01], 0x1000, 0x10004) := by decide
theorem test_sthbrsx : after (.sthbrsx 6 3 4 0) (ex true) 0x1020 3 6 = some ([0xEF, 0xCD, 0], V, 0x10004) ∧
    after (.sthbrsx 6 3 4 0) (ex false) 0x1020 3 6 = some ([0xCD, 0xEF, 0], V, 0x10004) := by decide
theorem test_stwbrsx : after (.stwbrsx 6 3 4 1) (ex true) 0x1040 4 6 = some ([0xEF, 0xCD, 0xAB, 0x89], V, 0x10004) ∧
    after (.stwbrsx 6 3 4 1) (ex false) 0x1040 4 6 = some ([0x89, 0xAB, 0xCD, 0xEF], V, 0x10004) := by decide
theorem test_stdbrsx : after (.stdbrsx 6 3 4 2) (ex true) 0x1080 8 6 =
      some ([0xEF, 0xCD, 0xAB, 0x89, 0x67, 0x45, 0x23, 0x01], V, 0x10004) ∧
    after (.stdbrsx 6 3 4 2) (ex false) 0x1080 8 6 =
      some ([0x01, 0x23, 0x45, 0x67, 0x89, 0xAB, 0xCD, 0xEF], V, 0x10004) := by decide

/-- U1. -/
theorem test_stbsux : after (.stbsux 10 11 12 3) (demo true .perform [(10, V), (11, 0x2000), (12, 3)]) 0x2030 2 11 =
    some ([0xEF, 0], 0x2030, 0x10004) := by decide
/-- U2: a negative index. -/
theorem test_sthsux : after (.sthsux 10 11 12 0)
      (demo true .perform [(10, V), (11, 0x2000), (12, 0xFFFFFFFFFFFFFFFF)]) 0x1FFE 2 11 =
    some ([0xCD, 0xEF], 0x1FFE, 0x10004) := by decide
/-- U3: RS = RA, the old register is stored. -/
theorem test_stwsux : after (.stwsux 3 3 4 1) (demo false .perform [(3, 0x1000), (4, 0x10)]) 0x1040 4 3 =
    some ([0x00, 0x10, 0x00, 0x00], 0x1040, 0x10004) := by decide
/-- U4: RA = RB. -/
theorem test_stdsux : after (.stdsux 4 3 3 0) (demo true .perform [(3, 0x1000), (4, V)]) 0x3000 8 3 =
    some ([0x01, 0x23, 0x45, 0x67, 0x89, 0xAB, 0xCD, 0xEF], 0x3000, 0x10004) := by decide

/-- A byte that is 0 is stored by removing the entry: the truncation vector of section 2.2. -/
theorem test_store_zero_is_canonical : (nextOf (exec (.stbsx 5 3 4 0)
      ((demo true .perform [(3, 0x1000), (5, 0xFFFFFFFFFFFFFF00)]).withMem [(0x1000, 0x77)]))).map State.mem =
    some [] := by decide

/-! ## Faults and refusals (section 2.5) -/

/-- X1: the store is not admitted. -/
theorem test_storage_fault : faultOf (exec (.stdsux 7 1 2 2)
      { demo true .perform [(1, 0x1FF8), (2, 1), (7, V)] with params := { demoParams true .perform with admitted := window } }) =
    some (.storageFault 0x2000 8 0x10000) := by decide
/-- X2, X3, X4: the three values of `MISALIGN`. -/
theorem test_misaligned : after (.stwsx 5 3 4 0) (demo true .perform [(3, 0x1001), (5, V)]) 0x1001 4 3 =
      some ([0x89, 0xAB, 0xCD, 0xEF], 0x1001, 0x10004) ∧
    faultOf (exec (.stwsx 5 3 4 0) (demo true .fault [(3, 0x1001), (5, V)])) = some (.alignmentFault 0x1001 4 0x10000) ∧
    refusalOf (exec (.stwsx 5 3 4 0) (demo true .refuse [(3, 0x1001), (5, V)])) =
      some (.misalignedRefused 0x1001 4 0x10000) := by decide
/-- X6, X7, X8: the top of the address space. -/
theorem test_top_of_storage : (nextOf (exec (.stdsx 5 3 4 2) (demo true .perform [(3, 0xFFFFFFFFFFFFFFF0), (4, 1)]))).isSome ∧
    refusalOf (exec (.stdsx 5 3 4 0) (demo true .perform [(3, 0xFFFFFFFFFFFFFFFA), (4, 1)])) =
      some (.addressWrap 0xFFFFFFFFFFFFFFFC 0x10000) ∧
    refusalOf (exec (.sthsx 5 3 4 0) (demo true .fault [(3, 0xFFFFFFFFFFFFFFFF)])) =
      some (.addressWrap 0xFFFFFFFFFFFFFFFF 0x10000) := by decide
/-- X9: the text is not overwritten; the byte before it and the byte after it may be. -/
theorem test_text_overwritten : refusalOf (exec (.stbsx 5 3 4 0) (prog [(3, 0x10003)] [0x7CA32024])) =
      some (.textOverwritten 0x10003 1 0x10000) ∧
    (nextOf (exec (.stbsx 5 3 4 0) (prog [(3, 0x10004)] [0x7CA32024]))).isSome ∧
    (nextOf (exec (.stbsx 5 3 4 0) (prog [(3, 0xFFFF)] [0x7CA32024]))).isSome := by decide
/-- X13: alignment is checked before admission. -/
theorem test_alignment_before_admission : faultOf (exec (.stwsx 5 3 4 0)
      { demo true .fault [(3, 0x2001)] with params := { demoParams true .fault with admitted := window } }) =
    some (.alignmentFault 0x2001 4 0x10000) := by decide
/-- U7: the invalid forms that exec itself stops on. -/
theorem test_invalid_forms : faultOf (exec (.stbsux 5 0 4 0) (ex true)) = some (.invalidForm 0x7CA02026 0x10000) ∧
    faultOf (exec (.sthsux 5 0 4 1) (ex true)) = some (.invalidForm 0x7CA023FE 0x10000) ∧
    faultOf (exec (.stwsux 5 0 4 2) (ex true)) = some (.invalidForm 0x7CA02484 0x10000) ∧
    faultOf (exec (.stdsux 5 0 4 3) (ex true)) = some (.invalidForm 0x7CA02668 0x10000) := by decide

/-! ## One step (60_exceptions.md rule R105) -/

/-- P5's second instruction: the fetched word is recorded. -/
theorem test_step_invalid_form : faultOf (step (prog [] [0x7CA02026])) = some (.invalidForm 0x7CA02026 0x10000) := by
  decide
/-- X10 and X12 fetched. -/
theorem test_step_rejects : refusalOf (step (prog [] [0x60000000])) = some (.notInScope 0x60000000 0x10000) ∧
    refusalOf (step (prog [] [0x7CA32025])) = some (.reservedBitSet 0x7CA32025 0x10000) := by decide
/-- P1's fourth instruction, fetched and executed: base zero, `GPR[0]` not read. -/
theorem test_step_executes : (nextOf (step (prog [(0, 0x77), (4, 0x10), (5, V)] [0x7CA02624]))).map
    (fun t => (t.mem.read 0x100, t.pc, t.outcome)) = some (0xEF, 0x10004, .running) := by decide
/-- The end of the text: the empty text exits at once, and an ended run has no next step. -/
theorem test_step_exits : (nextOf (step (ex true))).map State.outcome = some .exited ∧
    refusalOf (step ((ex true).withOutcome .exited)) = some (.runEnded 0x10000) := by decide
theorem test_reset_exits : nextOf (step State.reset) = some (State.reset.withOutcome .exited) := by
  have h : atTextEnd State.reset = true := decide_eq_true rfl
  simp [step, runCycle, State.reset, Config.params, nextOf, atTextEnd, textEnd]
/-- The codes of R100. -/
theorem test_codes : faultCode (.storageFault 0 8 0) = "F2" ∧ refusalCode (.textOverwritten 0 8 0) = some "X4" := by decide

/-! ## Witnesses: each statement's hypotheses are met together -/

theorem test_witness_DecodeEncodeRoundTrip : demoXo.Distinct ∧ (Instr.stdsux 31 31 31 3).WellFormed ∧
    (Instr.stbsx 0 0 0 0).WellFormed := by decide
theorem test_witness_EncodeDecodeRoundTrip : decode demoXo 0x7CE11468#32 = .instr (.stdsux 7 1 2 2) := by decide
theorem test_witness_DecodeFollowsMaskAndMatch : demoXo.Distinct ∧
    (∀ m ∈ Mnemonic.all, 0x60000000#32 &&& 0xFC0001FE#32 ≠ matchWord demoXo m) ∧
    (0x7CA32025#32 &&& 0xFC0001FE#32 = matchWord demoXo .stbsx ∧ (0x7CA32025#32).getLsbD 0 = true) ∧
    (0x7CA02026#32 &&& 0xFC0001FE#32 = matchWord demoXo .stbsux ∧ (0x7CA02026#32).getLsbD 0 = false ∧
      (0x7CA02026#32).extractLsb' 16 5 = 0#5) ∧
    (0x7CA12026#32 &&& 0xFC0001FF#32 = matchWord demoXo .stbsux ∧ (0x7CA12026#32).extractLsb' 16 5 = 1#5) := by decide
theorem test_witness_SpecWordsDecode : demoXo.Distinct ∧ demoXo.stbsx = 0x12 ∧ demoXo.sthsux = 0xFF ∧
    demoXo.stdsux = 0x34 ∧ demoXo.stwbrsx = 0x56 := by decide

/-- Two states that differ in registers `stbsx r5,0,r4,0` does not read, `GPR[0]` among them. -/
theorem test_witness_InstructionsReadAndWriteTheirRegisters : (ex true).mem.wf = true ∧
    (nextOf (exec (.stbsx 5 0 4 0) (ex true))).isSome ∧ (nextOf (exec (.stdsux 5 3 4 0) (ex true))).isSome ∧
    ((ex true).writeGpr 0 9).mem = (ex true).mem ∧ ((ex true).writeGpr 0 9).readGpr 5 = (ex true).readGpr 5 ∧
    ((ex true).writeGpr 0 9).readGpr 4 = (ex true).readGpr 4 ∧ ((ex true).writeGpr 0 9).gpr ≠ (ex true).gpr := by decide
theorem test_witness_IndexedAddressFormula :
    ((demo true .perform [(4, 0xFFFFFFFFFFFFFFFF)]).readGpr 4).toNat = 2 ^ 64 - 1 ∧
    ((demo true .perform [(4, 0)]).readGpr 4).toNat = 2 ^ 64 - 2 ^ 64 := by decide
theorem test_witness_UpdateFormsWriteBackAddress : (ex true).mem.wf = true ∧
    (Instr.stwsux 5 3 4 0).mnemonic.isUpdate = true ∧ (Instr.stwsux 5 3 4 0).ra ≠ 0 ∧
    StoreOk (ex true) (operandAddress (.stwsux 5 3 4 0) (ex true)) 4 ∧ (Instr.stwsux 5 0 4 0).ra = 0 ∧
    ¬ StoreOk (demo true .fault [(3, 1)]) (operandAddress (.stwsux 5 3 4 0) (demo true .fault [(3, 1)])) 4 := by decide
theorem test_witness_AddressKeepsBaseAlignment : ((ex true).readGpr 3).toNat % min 8 (2 ^ ((3 : ShSel).val + 1)) = 0 := by
  decide

/-- The clauses of `MemWrite`, each met at a boundary: one byte too far and just fitting, one off alignment, not admitted, the
first and the last byte of the text, and the byte after it. -/
theorem test_witness_MemWriteChecksThenWrites : (ex true).mem.wf = true ∧
    (2 ^ 64 < (0xFFFFFFFFFFFFFFF9#64).toNat + 8 ∧ (0xFFFFFFFFFFFFFFF8#64).toNat + 8 ≤ 2 ^ 64) ∧
    ((0x1001#64).toNat % 2 ≠ 0 ∧ (demo true .fault []).params.misalign = .fault ∧
      (demo true .refuse []).params.misalign = .refuse) ∧
    admits { demoParams true .perform with admitted := window } 0x1FF9 8 = false ∧
    admits { demoParams true .perform with admitted := window } 0x1FF8 8 = true ∧
    (meetsText (prog [] [0]).params 0xFFFF 1 = false ∧ meetsText (prog [] [0]).params 0x10000 1 = true ∧
      meetsText (prog [] [0]).params 0x10003 1 = true ∧ meetsText (prog [] [0]).params 0x10004 1 = false) := by decide
theorem test_witness_MemReadReturnsWhatMemWriteStored :
    (nextOf (memWrite (ex false) 0x1001 4 0x89ABCDEF#32)).map (fun t => memRead t 0x1001 4) = some 0x89ABCDEF#32 := by
  decide
theorem test_witness_MixedWidthViewOfWord : (ex true).mem.wf = true ∧ StoreOk (ex true) 0xFFFFFFFFFFFFFFFC 4 ∧
    StoreOk (ex false) 0x1000 4 ∧ (ex true).params.bigEndian = true ∧ (ex false).params.bigEndian = false := by decide
theorem test_witness_MemWriteTwiceIsOnce : (nextOf (memWrite (ex true) 0x1000 8 V)).isSome ∧ (ex true).mem.wf = true := by
  decide
/-- P3's first and fourth instructions, which overlap; and a store that stops. -/
theorem test_witness_StoresComposeByteByByte : ((nextOf (exec (.stdsx 6 3 4 1) (ex true))).bind fun t =>
      (nextOf (exec (.stbsx 6 3 4 1) t))).map (fun u => u.mem.readBytes 0x1040 3) = some [0xEF, 0x23, 0x45] ∧
    nextOf (exec (.stwsx 5 3 4 0) (demo true .fault [(3, 1)])) = none := by decide
theorem test_witness_ByteReverseIsOtherByteOrder : (nextOf (exec (.sthbrsx 6 3 4 0) (ex true))).isSome ∧
    (nextOf (exec (.stwbrsx 6 3 4 1) (ex true))).isSome ∧ (nextOf (exec (.stdbrsx 6 3 4 2) (ex false))).isSome := by decide

/-- The hypotheses of an instruction's statement (base r3, index r4): canonical storage and a performed store, at an operand
that ends exactly at the top; and each clause of its stops, met in a state of its own, with what `exec` answers there. -/
abbrev StopsMet (i : Instr) (n : Nat) : Prop :=
  let at_ (mis : Misalign) (b : Nat) : State := demo true mis [(3, BitVec.ofNat 64 b), (5, V)]
  let noAdmit : State := { at_ .perform 0x1000 with params := { demoParams true .perform with admitted := [] } }
  ((at_ .perform 0).mem.wf = true ∧ StoreOk (at_ .perform (2 ^ 64 - n)) (operandAddress i (at_ .perform (2 ^ 64 - n))) n ∧
    (nextOf (exec i (at_ .perform (2 ^ 64 - n)))).isSome = true) ∧
  (n = 1 ∨ (refusalOf (exec i (at_ .fault (2 ^ 64 - n + 1))) = some (.addressWrap (BitVec.ofNat 64 (2 ^ 64 - n + 1)) 0x10000) ∧
    faultOf (exec i (at_ .fault 0x1001)) = some (.alignmentFault 0x1001 n 0x10000) ∧
    refusalOf (exec i (at_ .refuse 0x1001)) = some (.misalignedRefused 0x1001 n 0x10000))) ∧
  faultOf (exec i noAdmit) = some (.storageFault 0x1000 n 0x10000) ∧
  refusalOf (exec i (prog [(3, 0x10003)] [0])) = some (.textOverwritten 0x10003 n 0x10000)

theorem test_witness_StbsxStoresLowByte : StopsMet (.stbsx 5 3 4 0) 1 := by decide
theorem test_witness_StbsuxStoresLowByteAndUpdates : StopsMet (.stbsux 5 3 4 0) 1 := by decide
theorem test_witness_SthsxStoresLowHalfword : StopsMet (.sthsx 5 3 4 1) 2 := by decide
theorem test_witness_SthsuxStoresLowHalfwordAndUpdates : StopsMet (.sthsux 5 3 4 1) 2 := by decide
theorem test_witness_StwsxStoresLowWord : StopsMet (.stwsx 5 3 4 2) 4 := by decide
theorem test_witness_StwsuxStoresLowWordAndUpdates : StopsMet (.stwsux 5 3 4 2) 4 := by decide
theorem test_witness_StdsxStoresDoubleword : StopsMet (.stdsx 5 3 4 3) 8 := by decide
theorem test_witness_StdsuxStoresDoublewordAndUpdates : StopsMet (.stdsux 5 3 4 3) 8 := by decide
theorem test_witness_SthbrsxStoresReversedHalfword : StopsMet (.sthbrsx 5 3 4 0) 2 := by decide
theorem test_witness_StwbrsxStoresReversedWord : StopsMet (.stwbrsx 5 3 4 1) 4 := by decide
theorem test_witness_StdbrsxStoresReversedDoubleword : StopsMet (.stdbrsx 5 3 4 2) 8 := by decide

theorem test_witness_frames : (Instr.stdbrsx 6 3 4 2).mnemonic.isUpdate = false ∧
    (nextOf (exec (.stdbrsx 6 3 4 2) (ex true))).isSome ∧ (Instr.stbsux 5 3 4 0).mnemonic.isUpdate = true ∧
    (nextOf (exec (.stbsux 5 3 4 0) (ex true))).isSome ∧ (ex true).mem.wf = true := by decide
theorem test_witness_StepRunsDecodedInstruction : CanFetch (prog [] [0x7CA32024]) ∧
    decode demoXo (memRead (prog [] [0x7CA32024]) 0x10000 4) = .instr (.stbsx 5 3 4 0) := by decide

/-- The clauses of R105: the end of the text, the top of the address space, and a word of each kind where CanFetch holds. -/
theorem test_witness_StepChecksInOrder :
    (SingleAgent (prog [] []).params ∧ (prog [] []).params.xo.Distinct ∧ (prog [] []).mem.wf = true ∧
      (prog [] []).pc.toNat = 0x10000 + 4 * (prog [] []).params.text.length) ∧
    ({ prog [] [] with pc := 0xFFFFFFFFFFFFFFFC }.pc.toNat = 2 ^ 64 - 4) ∧
    CanFetch (prog [] [0x60000000]) ∧ fieldPO (memRead (prog [] [0x60000000]) 0x10000 4) ≠ 31#6 ∧
    (∀ m ∈ Mnemonic.all, demoXo.get m ≠ fieldXO (memRead (prog [] [0x7C000000]) 0x10000 4)) ∧
    (fieldXO 0x7CA32025#32 = demoXo.get .stbsx ∧ fieldR31 0x7CA32025#32 = 1#1 ∧ CanFetch (prog [] [0x7CA32025])) ∧
    (fieldXO 0x7CA02026#32 = demoXo.get .stbsux ∧ fieldRA 0x7CA02026#32 = 0#5 ∧ CanFetch (prog [] [0x7CA02026])) ∧
    (fieldXO 0x7CA12026#32 = demoXo.get .stbsux ∧ fieldRA 0x7CA12026#32 = 1#5 ∧
      StoreOk (prog [] [0x7CA12026]) (operandAddress (.stbsux 5 1 4 0) (prog [] [0x7CA12026])) 1) := by decide
theorem test_witness_StepRefusesTopOfAddressSpace : refusalOf (step { prog [] [] with pc := 0xFFFFFFFFFFFFFFFC }) =
    some (.addressWrap 0xFFFFFFFFFFFFFFFC 0xFFFFFFFFFFFFFFFC) ∧ textEnd (prog [] []).params ≠ 2 ^ 64 - 4 := by decide
theorem test_witness_SecondAgentIsRefused :
    refusalOf (step { ex true with params := { demoParams true .perform with otherAgents := 1 } }) =
      some (.secondAgent 0x10000) := by decide
theorem test_witness_StepKeepsParameters : (nextOf (step (prog [] [0x7CA32024]))).isSome ∧
    (nextOf (step (prog [] []))).isSome := by decide

/-- A step that ends in each fault and each refusal. -/
theorem test_witness_StopsHaveTheirCauses :
    faultOf (step (prog [] [0x7CA02026])) = some (.invalidForm 0x7CA02026 0x10000) ∧
    faultOf (step { prog [(3, 0x2000)] [0x7CA32024] with
      params := { demoParams true .perform with admitted := window, text := [0x7CA32024] } }) =
      some (.storageFault 0x2000 1 0x10000) ∧
    faultOf (step { prog [(3, 0x1001)] [0x7CA32042] with
      params := { demoParams true .fault with text := [0x7CA32042] } }) = some (.alignmentFault 0x1001 2 0x10000) ∧
    refusalOf (step { prog [(3, 0x1001)] [0x7CA32042] with
      params := { demoParams true .refuse with text := [0x7CA32042] } }) = some (.misalignedRefused 0x1001 2 0x10000) ∧
    refusalOf (step (prog [(3, 0xFFFFFFFFFFFFFFFF)] [0x7CA32042])) = some (.addressWrap 0xFFFFFFFFFFFFFFFF 0x10000) ∧
    refusalOf (step (prog [(3, 0x10000)] [0x7CA32042])) = some (.textOverwritten 0x10000 2 0x10000) := by decide
/-- `Admit` constantly true exists as plain data. -/
theorem test_witness_StorageFaultExactlyWhenNotAdmitted (a : Dword) (n : Nat) (h : n ∈ [1, 2, 4, 8]) :
    admits (demoParams true .perform) a n = true := by
  have ha := a.isLt
  simp only [List.mem_cons, List.not_mem_nil, or_false] at h
  rcases h with rfl | rfl | rfl | rfl <;> simp [admits, demoParams, everywhere] <;> omega
theorem test_witness_AlignmentFaultOnlyWhenAsked : faultOf (exec (.stdbrsx 5 3 4 0) (demo true .fault [(3, 0x1004)])) =
    some (.alignmentFault 0x1004 8 0x10000) ∧ (Instr.stdbrsx 5 3 4 0).WellFormed := by decide
theorem test_witness_StopsArePreciseAndChangeNothing :
    (advance (prog [] [0x7CA02026])).outcome = .faulted (.invalidForm 0x7CA02026 0x10000) ∧
    (advance (prog [] [0])).outcome = .refused (.notInScope 0 0x10000) := by decide
theorem test_witness_EndedRunsStayEnded : Terminal ((ex true).withOutcome .exited) ∧
    Terminal ((ex true).withOutcome (.faulted (.invalidForm 0 0))) := by decide
theorem test_witness_LaunchHoldsTheText : TextFits (prog [] [1, 2]).params ∧ Memory.wf [(0x10001, 0x55)] = true ∧
    TextFits { demoParams true .perform with textBase := 0xFFFFFFFFFFFFFFF8, text := [1] } := by decide
theorem test_witness_LoadedWordRuns : (ex true).mem.wf = true ∧ SingleAgent (ex true).params ∧
    decode (ex true).params.xo 0x7CA32024#32 = .instr (.stbsx 5 3 4 0) ∧
    (nextOf (step ((ex true).withFetchWord 32 0x7CA32024))).map (fun t => t.mem.read 0x1020) = some 0xEF := by decide
theorem test_witness_StepKeepsInvariant : MachineInv (prog [] [0x7CA32024]) ∧
    (nextOf (step (prog [] [0x7CA32024]))).isSome ∧ MachineInv (prog [] []) ∧ (nextOf (step (prog [] []))).isSome := by
  decide
theorem test_witness_StepExecutesTheText : MachineInv (prog [] [0x7CA32024]) ∧
    decode demoXo 0x7CA32024#32 = .instr (.stbsx 5 3 4 0) ∧ (prog [] [0x7CA32024]).pc.toNat = 0x10000 + 4 * 0 := by decide
/-- A launch with a text of one word, one with none; and the run of the first exits after its instruction. -/
theorem test_witness_EveryRunEnds : LaunchPremises (prog [] [0x7CA32024]) ∧ LaunchPremises (prog [] []) ∧
    (runFor 2 (prog [] [0x7CA32024])).outcome = .exited ∧ (runFor 1 (prog [] [0x7CA02026])).outcome =
      .faulted (.invalidForm 0x7CA02026 0x10000) := by decide

end Sys2Proof.Tests
end

/-! PROOFS. The state (10_state.md): registers, what an instruction reads, writes and leaves alone, what a step keeps, and
the state at reset. -/

namespace Sys2Proof.Machine

/-! ## Rules: frames of the updates, addresses by form, steps that do not run an instruction -/

/-- Writing a register leaves the outcome and the parameters alone (R27). -/
theorem sameRest_writeGpr (s : State) (r : RegNum) (v : Dword) : SameRest s (s.writeGpr r v) := ⟨rfl, rfl⟩

theorem operandAddress_of_isUpdate {i : Instr} (h : i.mnemonic.isUpdate = true) (s : State) :
    operandAddress i s = eaUpdate s i.ra i.rb i.sh := if_pos h

theorem operandAddress_of_not_isUpdate {i : Instr} (h : i.mnemonic.isUpdate = false) (s : State) :
    operandAddress i s = eaIndexed s i.ra i.rb i.sh := if_neg (by simp [h])

/-- A form without update leaves the whole register file alone. -/
theorem stateAfter_gpr_of_not_isUpdate {i : Instr} (h : i.mnemonic.isUpdate = false) (s : State) :
    (stateAfter i s).gpr = s.gpr := by
  simp [stateAfter, h]

/-- Outside the operand a store leaves every byte as it was. -/
theorem WritesExactly.read_outside {s t : State} {ea : Dword} {n : Nat} {byte : Nat → Byte}
    (h : WritesExactly s t ea n byte) {a : Nat} (ha : a < ea.toNat ∨ ea.toNat + n ≤ a) :
    t.mem.read a = s.mem.read a := by
  rw [h a, if_neg (by omega)]

section
variable {i : Instr} {s t : State}

/-- A completed instruction leaves the outcome and the parameters alone (R27, R28). -/
theorem sameRest_of_exec_eq_next (h : exec i s = .next t) : SameRest s t := by
  obtain ⟨-, -, rfl⟩ := exec_eq_next.1 h
  exact ⟨stateAfter_outcome i s, stateAfter_params i s⟩

/-- The registers of a completed instruction: RA of an update form receives EA, every other one stays (R22). -/
theorem readGpr_of_exec_eq_next (h : exec i s = .next t) (r : RegNum) :
    t.readGpr r = if i.mnemonic.isUpdate = true ∧ r = i.ra then operandAddress i s else s.readGpr r := by
  obtain ⟨-, -, rfl⟩ := exec_eq_next.1 h
  exact stateAfter_readGpr i s r

/-- The storage of a completed instruction: exactly the operand is new (20_memory.md rule R57 (a)). -/
theorem writesExactly_of_exec_eq_next (hm : s.mem.wf = true) (h : exec i s = .next t) :
    WritesExactly s t (operandAddress i s) (operandSize i.mnemonic) (operandByte i s) := by
  obtain ⟨-, ok, rfl⟩ := exec_eq_next.1 h
  exact writesExactly_stateAfter i hm ok

/-- A running single-agent machine short of the text's end is refused where the word at `pc` would reach the top. -/
theorem step_of_pcAtTop (ho : s.outcome = .running) (ha : SingleAgent s.params) (he : atTextEnd s = false)
    (hp : pcAtTop s = true) : step s = .refused (.addressWrap s.pc s.pc) := by
  simp [step, runCycle, ho, ha, he, hp]

theorem step_ne_next_of_terminal (h : Terminal s) : step s ≠ .next t := fun hs => h (step_eq_next.1 hs).1

theorem advance_of_terminal (h : Terminal s) : advance s = s := if_neg h

/-- An ended run stays where it is, however many steps are asked of it (R32). -/
theorem runFor_of_terminal (h : Terminal s) (k : Nat) : runFor k s = s := by
  induction k with
  | zero => rfl
  | succ k ih => rw [runFor, advance_of_terminal h, ih]

end

/-! ## What an instruction reads -/

/-- The states agree on everything `exec i` may read (R22): `pc`, storage and parameters, RS, RB, and RA unless the RA field
is 0. Nothing is said of any other register, nor of the outcome. -/
structure AgreeOnInputs (i : Instr) (s s' : State) : Prop where
  pc : s'.pc = s.pc
  mem : s'.mem = s.mem
  params : s'.params = s.params
  rs : s'.readGpr i.rs = s.readGpr i.rs
  rb : s'.readGpr i.rb = s.readGpr i.rb
  ra : i.ra ≠ 0 → s'.readGpr i.ra = s.readGpr i.ra

/-- The value stored depends on RS alone. -/
theorem operandValue_congr {i : Instr} {s s' : State} (h : s'.readGpr i.rs = s.readGpr i.rs) :
    operandValue i s' = operandValue i s := by
  cases i <;> simp only [operandValue] <;> exact congrArg _ h

namespace AgreeOnInputs
variable {i : Instr} {s s' : State}

/-- EA is the same: a form without update does not read `GPR[0]` as base, and a valid update form has RA other than 0. -/
theorem operandAddress_eq (h : AgreeOnInputs i s s') (hw : i.WellFormed) :
    operandAddress i s' = operandAddress i s := by
  have hidx : scaledIndex s' i.rb i.sh = scaledIndex s i.rb i.sh := congrArg (shl64 · _) h.rb
  cases hu : i.mnemonic.isUpdate with
  | true =>
    have hra : i.ra ≠ 0 := fun h0 => hw ⟨hu, h0⟩
    rw [operandAddress_of_isUpdate hu, operandAddress_of_isUpdate hu, eaUpdate, eaUpdate, h.ra hra, hidx]
  | false =>
    have hbase : baseOrZero s' i.ra = baseOrZero s i.ra := if_ctx_congr Iff.rfl (fun _ => rfl) h.ra
    rw [operandAddress_of_not_isUpdate hu, operandAddress_of_not_isUpdate hu, eaIndexed, eaIndexed, hbase, hidx]

theorem memAfterInstr_eq (h : AgreeOnInputs i s s') (hw : i.WellFormed) : memAfterInstr i s' = memAfterInstr i s := by
  simp only [memAfterInstr, memAfter, h.operandAddress_eq hw, operandValue_congr h.rs, h.mem, h.params]

/-- The checks of the store, and with them the stop, are the same. -/
theorem storeCheck_eq (h : AgreeOnInputs i s s') (hw : i.WellFormed) :
    storeCheck s' (operandAddress i s') (operandSize i.mnemonic) =
      storeCheck s (operandAddress i s) (operandSize i.mnemonic) := by
  rw [h.operandAddress_eq hw, storeCheck_congr h.params h.pc]

/-- From states that agree on its inputs an instruction stops in the same way, or completes from both. -/
theorem exec_eq_andThen (h : AgreeOnInputs i s s') :
    exec i s' = andThen (exec i s) fun _ => .next (stateAfter i s') := by
  rw [exec_stop i s, exec_stop i s', h.params, h.pc]
  by_cases hw : i.WellFormed
  · rw [if_neg hw, if_neg hw, h.storeCheck_eq hw]
    cases storeCheck s (operandAddress i s) (operandSize i.mnemonic) <;> rfl
  · rw [if_pos (not_not.1 hw), if_pos (not_not.1 hw), andThen_fault]

/-- Two completions from states that agree on the inputs leave the same storage, the same `pc`, and the same EA in RA. -/
theorem stateAfter_agree (h : AgreeOnInputs i s s') (hw : i.WellFormed) :
    (stateAfter i s').mem = (stateAfter i s).mem ∧ (stateAfter i s').pc = (stateAfter i s).pc ∧
      (i.mnemonic.isUpdate = true → (stateAfter i s').readGpr i.ra = (stateAfter i s).readGpr i.ra) := by
  refine ⟨?_, ?_, fun hu => ?_⟩
  · rw [stateAfter_mem, stateAfter_mem, h.memAfterInstr_eq hw]
  · rw [stateAfter_pc, stateAfter_pc, h.pc]
  · rw [stateAfter_readGpr, stateAfter_readGpr, if_pos ⟨hu, rfl⟩, if_pos ⟨hu, rfl⟩, h.operandAddress_eq hw]

end AgreeOnInputs

/-! ## The obligations -/

/-- Settles O7: the writes are those of any completed instruction; from states that agree on the inputs the stops are the
same and the completions leave the same storage, `pc` and EA. -/
theorem instructionsReadAndWriteTheirRegisters : Obligations.InstructionsReadAndWriteTheirRegisters := by
  intro i s hm
  refine ⟨fun t ht => ⟨readGpr_of_exec_eq_next ht, writesExactly_of_exec_eq_next hm ht⟩, ?_⟩
  intro s' hpc hmem _ hparams hrs hrb hra
  have agree : AgreeOnInputs i s s' := ⟨hpc, hmem, hparams, hrs, hrb, hra⟩
  have hexec := agree.exec_eq_andThen
  refine ⟨fun f hf => ?_, fun r hr => ?_, fun t ht => ⟨stateAfter i s', ?_, ?_⟩⟩
  · rw [hexec, hf, andThen_fault]
  · rw [hexec, hr, andThen_refused]
  · rw [hexec, ht, andThen_next]
  · obtain ⟨hw, -, rfl⟩ := exec_eq_next.1 ht
    exact agree.stateAfter_agree hw

/-- Settles O29: a completed form without update is a performed store that writes no register. -/
theorem frameOfStoresWithoutUpdate : Obligations.FrameOfStoresWithoutUpdate := by
  intro i s t hu hm ht
  refine ⟨?_, sameRest_of_exec_eq_next ht, fun a ha => ?_⟩
  · obtain ⟨-, -, rfl⟩ := exec_eq_next.1 ht
    exact stateAfter_gpr_of_not_isUpdate hu s
  · rw [← operandAddress_of_not_isUpdate hu] at ha
    exact (writesExactly_of_exec_eq_next hm ht).read_outside ha

/-- Settles O30: a completed form with update is a performed store that writes RA alone. -/
theorem frameOfStoresWithUpdate : Obligations.FrameOfStoresWithUpdate := by
  intro i s t hu hm ht
  refine ⟨fun r hr => ?_, sameRest_of_exec_eq_next ht, fun a ha => ?_⟩
  · rw [readGpr_of_exec_eq_next ht, if_neg (fun h => hr h.2)]
  · rw [← operandAddress_of_isUpdate hu] at ha
    exact (writesExactly_of_exec_eq_next hm ht).read_outside ha

/-- Settles O36: a step that answers a next state exits or completes an instruction, and either keeps the parameters. -/
theorem stepKeepsParameters : Obligations.StepKeepsParameters := by
  intro s t hs
  obtain ⟨hrun, -, ⟨-, rfl⟩ | ⟨-, -, i, -, hexec⟩⟩ := step_eq_next.1 hs
  · exact ⟨withOutcome_params s .exited, .inr (withOutcome_outcome s .exited)⟩
  · obtain ⟨hout, hparams⟩ := sameRest_of_exec_eq_next hexec
    exact ⟨hparams, .inl (hout.trans hrun)⟩

/-- Settles O41, by induction on the number of further steps. -/
theorem endedRunsStayEnded : Obligations.EndedRunsStayEnded :=
  fun _ k hterm => ⟨fun _ => step_ne_next_of_terminal hterm, runFor_of_terminal hterm k⟩

/-- Settles O6, for all 32 registers alike. -/
theorem registersHoldWhatWasWritten : Obligations.RegistersHoldWhatWasWritten := fun s r r' v =>
  ⟨readGpr_writeGpr_eq_ite s r r' v, writeGpr_pc s r v, writeGpr_mem s r v, sameRest_writeGpr s r v⟩

/-- Settles O34: at `pc` = 2^64 - 4 the check of the top answers, the check of the text's end having passed. -/
theorem stepRefusesTopOfAddressSpace : Obligations.StepRefusesTopOfAddressSpace := by
  intro s m hrun hagent hpc hend
  have hpcNat : s.pc.toNat = 2 ^ 64 - 4 := by rw [hpc]; rfl
  have hnotEnd : atTextEnd (s.withMem m) = false := decide_eq_false fun h => hend (h.symm.trans hpcNat)
  have htop : pcAtTop (s.withMem m) = true := decide_eq_true (by rw [withMem_pc, hpcNat]; decide)
  exact step_of_pcAtTop hrun hagent hnotEnd htop

/-- Settles O42: the launch state's fields. -/
theorem resetState : Obligations.ResetState :=
  have hgpr (r : RegNum) : State.reset.readGpr r = 0#64 := by simp [State.readGpr, State.reset]
  ⟨rfl, rfl, rfl, hgpr, read_nil, rfl⟩

end Sys2Proof.Machine

/-! PROOFS. Storage (20_memory.md): the effective address modulo the scale, `MemWrite` and `MemRead` byte by byte, how stores
compose, and the program text, which no step changes and every fetch reads. -/

namespace Sys2Proof.Machine

/-! ## The effective address as base plus index -/

/-- The base of EA: `(RA)` in the update forms, `(RA|0)` in the others (40_store_shifted.md rules R80 and R81). -/
def operandBase (i : Instr) (s : State) : Dword :=
  if i.mnemonic.isUpdate = true then s.readGpr i.ra else baseOrZero s i.ra

theorem operandAddress_eq_base_add (i : Instr) (s : State) :
    operandAddress i s = operandBase i s + scaledIndex s i.rb i.sh := by
  unfold operandAddress operandBase eaUpdate eaIndexed
  split <;> rfl

/-- The scaled index is a multiple of its scale: the scale divides 2^64, so wrapping loses nothing. -/
theorem dvd_scaledIndex (s : State) (rb : RegNum) (sh : ShSel) : 2 ^ (sh.val + 1) ∣ (scaledIndex s rb sh).toNat := by
  have hscale : 2 ^ (sh.val + 1) ∣ 2 ^ 64 := pow_dvd_pow 2 (by omega)
  rw [scaledIndex, toNat_shl64]
  exact (Nat.dvd_mod_iff hscale).2 (dvd_mul_left _ _)

/-- EA is congruent to its base modulo the scale (20_memory.md rule R46). -/
theorem operandAddress_modEq_base (i : Instr) (s : State) :
    (operandAddress i s).toNat ≡ (operandBase i s).toNat [MOD 2 ^ (i.sh.val + 1)] := by
  have hscale : 2 ^ (i.sh.val + 1) ∣ 2 ^ 64 := pow_dvd_pow 2 (by omega)
  have hindex : (scaledIndex s i.rb i.sh).toNat ≡ 0 [MOD 2 ^ (i.sh.val + 1)] :=
    Nat.modEq_zero_iff_dvd.2 (dvd_scaledIndex s i.rb i.sh)
  calc (operandAddress i s).toNat
      = ((operandBase i s).toNat + (scaledIndex s i.rb i.sh).toNat) % 2 ^ 64 := by
        rw [operandAddress_eq_base_add, BitVec.toNat_add]
    _ ≡ (operandBase i s).toNat + (scaledIndex s i.rb i.sh).toNat [MOD 2 ^ (i.sh.val + 1)] :=
        (Nat.mod_modEq _ _).of_dvd hscale
    _ ≡ (operandBase i s).toNat [MOD 2 ^ (i.sh.val + 1)] := hindex.add_left _

/-- Operand sizes and scales are powers of two, so the smaller of the two divides the scale. -/
theorem min_size_dvd_scale : ∀ n ∈ [1, 2, 4, 8], ∀ sh : ShSel, min n (2 ^ (sh.val + 1)) ∣ 2 ^ (sh.val + 1) := by decide

/-! ## The stops of MemWrite, one per check of rule R41 -/

section
variable {s : State} {addr : Dword} {n : Nat}

theorem storeCheck_of_wrap (h : storageSize < addr.toNat + n) :
    storeCheck s addr n = .refused (.addressWrap addr s.pc) := if_pos h

theorem storeCheck_of_misaligned_fault (hw : addr.toNat + n ≤ storageSize) (hz : addr.toNat % n ≠ 0)
    (hm : s.params.misalign = .fault) : storeCheck s addr n = .fault (.alignmentFault addr n s.pc) := by
  rw [storeCheck, if_neg (by omega), if_pos ⟨hz, hm⟩]

theorem storeCheck_of_misaligned_refuse (hw : addr.toNat + n ≤ storageSize) (hz : addr.toNat % n ≠ 0)
    (hm : s.params.misalign = .refuse) : storeCheck s addr n = .refused (.misalignedRefused addr n s.pc) := by
  rw [storeCheck, if_neg (by omega), if_neg (by simp [hm]), if_pos ⟨hz, hm⟩]

/-- Past the checks of the top and of the alignment, admission and the text decide. -/
theorem storeCheck_past_alignment (hw : addr.toNat + n ≤ storageSize)
    (hz : addr.toNat % n = 0 ∨ s.params.misalign = .perform) : storeCheck s addr n =
      if admits s.params addr n = false then .fault (.storageFault addr n s.pc)
      else if meetsText s.params addr n = true then .refused (.textOverwritten addr n s.pc)
      else .next () := by
  have hfault : ¬ (addr.toNat % n ≠ 0 ∧ s.params.misalign = .fault) := by rcases hz with h | h <;> simp [h]
  have hrefuse : ¬ (addr.toNat % n ≠ 0 ∧ s.params.misalign = .refuse) := by rcases hz with h | h <;> simp [h]
  rw [storeCheck, if_neg (by omega), if_neg hfault, if_neg hrefuse]

theorem storeCheck_of_not_admitted (hw : addr.toNat + n ≤ storageSize)
    (hz : addr.toNat % n = 0 ∨ s.params.misalign = .perform) (ha : admits s.params addr n = false) :
    storeCheck s addr n = .fault (.storageFault addr n s.pc) := by
  rw [storeCheck_past_alignment hw hz, if_pos ha]

theorem storeCheck_of_meetsText (hw : addr.toNat + n ≤ storageSize)
    (hz : addr.toNat % n = 0 ∨ s.params.misalign = .perform) (ha : admits s.params addr n = true)
    (ht : meetsText s.params addr n = true) : storeCheck s addr n = .refused (.textOverwritten addr n s.pc) := by
  rw [storeCheck_past_alignment hw hz, if_neg (by simp [ha]), if_pos ht]

/-- `MemWrite` passes on the fault its checks answer. -/
theorem memWrite_of_fault {f : Fault} (v : BitVec (8 * n)) (h : storeCheck s addr n = .fault f) :
    memWrite s addr n v = .fault f := by rw [memWrite, h, andThen_fault]

/-- `MemWrite` passes on the refusal its checks answer. -/
theorem memWrite_of_refused {r : Refusal} (v : BitVec (8 * n)) (h : storeCheck s addr n = .refused r) :
    memWrite s addr n v = .refused r := by rw [memWrite, h, andThen_refused]

/-- The operand misses the text exactly where no address lies in both (20_memory.md rule R55). -/
theorem meetsText_eq_false {p : Params} : meetsText p addr n = false ↔
    ∀ a, addr.toNat ≤ a → a < addr.toNat + n → ¬ (p.textBase.toNat ≤ a ∧ a < textEnd p) := by
  simp only [← Bool.not_eq_true, meetsText_iff, not_exists, not_and]

/-- `MemWrite` writes exactly its operand, in the byte order of the run. -/
theorem writesExactly_memAfter (v : BitVec (8 * n)) (hm : s.mem.wf = true) (hw : addr.toNat + n ≤ storageSize) :
    WritesExactly s (s.withMem (memAfter s addr n v)) addr n fun k =>
      byteAt v (if s.params.bigEndian then n - 1 - k else k) :=
  read_memAfter hm hw

end

/-! ## The bytes of a value read -/

theorem littleNat_lt (bs : List Byte) : littleNat bs < 2 ^ (8 * bs.length) := by
  induction bs with
  | nil => simp [littleNat]
  | cons b rest ih =>
    have hb := b.isLt
    rw [littleNat, List.length_cons, Nat.mul_succ, pow_add]
    omega

/-- The byte of a number at place `j` is the one listed there. -/
theorem littleNat_div_mod {bs : List Byte} {j : Nat} (h : j < bs.length) :
    littleNat bs / 2 ^ (8 * j) % 256 = bs[j].toNat := by
  induction bs generalizing j with
  | nil => simp at h
  | cons b rest ih =>
    have hb := b.isLt
    cases j with
    | zero => simp only [littleNat, List.getElem_cons_zero]; omega
    | succ j =>
      rw [Nat.mul_succ, pow_add, mul_comm, ← Nat.div_div_eq_div_mul, List.getElem_cons_succ, ← ih (by simpa using h),
        littleNat, show (b.toNat + 256 * littleNat rest) / 2 ^ 8 = littleNat rest by omega]

/-- Byte `j` of a number is the `j`-th byte of its list. -/
theorem byteAt_ofNat_littleNat {n j : Nat} {bs : List Byte} (hn : bs.length = n) (hj : j < bs.length) :
    byteAt (BitVec.ofNat (8 * n) (littleNat bs)) j = bs[j] := by
  subst hn
  apply BitVec.eq_of_toNat_eq
  rw [toNat_byteAt, BitVec.toNat_ofNat, Nat.mod_eq_of_lt (littleNat_lt bs), littleNat_div_mod hj]

/-- Byte `j` of `MemRead` stands at offset `n-1-j` in the big-endian order and at offset `j` in the other (R44). -/
theorem byteAt_memRead (s : State) (addr : Nat) {n j : Nat} (hj : j < n) : byteAt (memRead s addr n) j =
    s.mem.read (addr + (if s.params.bigEndian = true then n - 1 - j else j)) := by
  unfold memRead loadValue
  cases s.params.bigEndian <;> simp [byteAt_ofNat_littleNat, hj, getElem_readBytes]

/-! ## MemRead after MemWrite -/

section
variable {s t : State} {addr : Dword} {n : Nat}

theorem byteAt_extractLsb' {w : Nat} (v : BitVec w) (k : Nat) {m j : Nat} (hj : j < m) :
    byteAt (v.extractLsb' (8 * k) (8 * m)) j = byteAt v (k + j) := by
  unfold byteAt
  ext l hl
  simp [show 8 * j + l < 8 * m by omega, show 8 * k + (8 * j + l) = 8 * (k + j) + l by omega]

/-- The mixed-width view (R42): `m` of the `n` bytes just written, read at offset `k`, are a slice of the value. -/
theorem memRead_memAfter {k m : Nat} (v : BitVec (8 * n)) (hm : s.mem.wf = true) (hw : addr.toNat + n ≤ storageSize)
    (hk : k + m ≤ n) : memRead (s.withMem (memAfter s addr n v)) (addr.toNat + k) m =
      v.extractLsb' (8 * (if s.params.bigEndian = true then n - (k + m) else k)) (8 * m) := by
  refine eq_of_byteAt fun j hj => ?_
  rw [byteAt_memRead _ _ hj, writesExactly_memAfter v hm hw, byteAt_extractLsb' _ _ hj, withMem_params]
  cases s.params.bigEndian with
  | true =>
    simp only [if_true]
    rw [if_pos (by omega)]
    congr 1; omega
  | false =>
    simp only [Bool.false_eq_true, if_false]
    rw [if_pos (by omega)]
    congr 1; omega

/-- Storing the same value over itself changes no storage (20_memory.md rule R47). -/
theorem memAfter_memAfter (v : BitVec (8 * n)) (hm : s.mem.wf = true) (hw : addr.toNat + n ≤ storageSize) :
    memAfter (s.withMem (memAfter s addr n v)) addr n v = memAfter s addr n v := by
  have hwf : (memAfter s addr n v).wf = true := wf_memAfter v hm hw
  refine eq_of_read (wf_memAfter v hwf hw) hwf fun a => ?_
  rw [read_memAfter hwf hw, withMem_params, withMem_mem, read_memAfter hm hw]
  split <;> rfl

/-! ## Completed and stopped instructions -/

/-- A completed instruction keeps storage canonical. -/
theorem wf_of_exec_eq_next {i : Instr} (hm : s.mem.wf = true) (h : exec i s = .next t) : t.mem.wf = true := by
  obtain ⟨-, ok, rfl⟩ := exec_eq_next.1 h
  exact wf_stateAfter i hm ok

/-- A recorded stop leaves storage as it was (60_exceptions.md rule R107). -/
theorem record_mem_of_ne_next {o : Host.Outcome State Fault Refusal} (h : ∀ t, o ≠ .next t) :
    (record s o).mem = s.mem := by
  cases o with
  | next t => exact absurd rfl (h t)
  | fault f => rfl
  | refused r => rfl

/-! ## The program text in storage -/

/-- A store that misses the text leaves the text in storage as it was (20_memory.md rule R55). -/
theorem textInMem_of_writesExactly {byte : Nat → Byte} (hp : t.params = s.params) (hs : WritesExactly s t addr n byte)
    (hmiss : meetsText s.params addr n = false) (h : TextInMem s) : TextInMem t := by
  have hsame : ∀ a, s.params.textBase.toNat ≤ a → a < s.params.textBase.toNat + 4 * s.params.text.length →
      t.mem.read a = s.mem.read a := fun a hlo hhi => by
    rw [hs a, if_neg fun hin => meetsText_eq_false.1 hmiss a hin.1 hin.2 ⟨hlo, hhi⟩]
  rw [TextInMem, hp, readBytes_congr hsame]
  exact h

theorem length_textBytes (be : Bool) (text : List Word) : (textBytes be text).length = 4 * text.length := by
  simp [textBytes, List.length_flatMap, mul_comm]

/-- The bytes of the text before, in and after word `k`. -/
theorem textBytes_eq_append (be : Bool) {text : List Word} {k : Nat} (h : k < text.length) : textBytes be text =
    textBytes be (text.take k) ++ (storeBytes be 4 text[k] ++ textBytes be (text.drop (k + 1))) := by
  calc textBytes be text
      = textBytes be (text.take k ++ text[k] :: text.drop (k + 1)) := by
        rw [← List.drop_eq_getElem_cons h, List.take_append_drop]
    _ = _ := by simp only [textBytes, List.flatMap_append, List.flatMap_cons]

/-- Where the text stands in storage as loaded, the four bytes at its word `k` are those of the word. -/
theorem readBytes_text (hs : TextInMem s) {k : Nat} (h : k < s.params.text.length) :
    s.mem.readBytes (s.params.textBase.toNat + 4 * k) 4 = storeBytes s.params.bigEndian 4 s.params.text[k] := by
  rw [TextInMem, textBytes_eq_append _ h,
    show 4 * s.params.text.length = 4 * k + (4 + 4 * (s.params.text.length - (k + 1))) by omega,
    readBytes_add, readBytes_add] at hs
  have hbefore := (List.append_inj hs (by simp [length_textBytes]; omega)).2
  exact (List.append_inj hbefore (by simp)).1

/-- `MemRead` of a word of the text gives the word, in either byte order (R44). -/
theorem memRead_text (hs : TextInMem s) {k : Nat} (h : k < s.params.text.length) :
    memRead s (s.params.textBase.toNat + 4 * k) 4 = s.params.text[k] := by
  rw [memRead, readBytes_text hs h]
  exact loadValue_storeBytes s.params.bigEndian 4 s.params.text[k]

/-! ## The invariant is kept -/

/-- The exit changes the outcome alone, at the end of the text. -/
theorem machineInv_exit (h : MachineInv s) (he : atTextEnd s = true) : MachineInv (s.withOutcome .exited) := by
  obtain ⟨hwf, halign, hfits, htext, hagent, hxo, hlo, hhi, hpc, -⟩ := h
  exact ⟨hwf, halign, hfits, htext, hagent, hxo, hlo, hhi, hpc, fun _ => of_decide_eq_true he⟩

/-- Short of the end of the text, `pc + 4` does not wrap and stays within the text or at its end. -/
theorem pc_add_four_of_machineInv (h : MachineInv s) (he : atTextEnd s = false) :
    (s.pc + 4#64).toNat = s.pc.toNat + 4 ∧ s.pc.toNat + 4 ≤ textEnd s.params := by
  obtain ⟨-, halign, hfits, -, -, -, -, hhi, hpc, -⟩ := h
  have hne : s.pc.toNat ≠ textEnd s.params := of_decide_eq_false he
  simp only [TextAligned, TextFits, textEnd, storageSize] at *
  refine ⟨?_, by omega⟩
  rw [BitVec.toNat_add]
  exact Nat.mod_eq_of_lt (by simp; omega)

/-- An instruction completed at a word of the text keeps the invariant: its store missed the text, and `pc` moved on by one
word. -/
theorem machineInv_of_exec_eq_next {i : Instr} (h : MachineInv s) (hrun : s.outcome = .running)
    (he : atTextEnd s = false) (hexec : exec i s = .next t) : MachineInv t := by
  obtain ⟨hpc4, hbound⟩ := pc_add_four_of_machineInv h he
  obtain ⟨hwf, halign, hfits, htext, hagent, hxo, hlo, -, hpc, -⟩ := h
  obtain ⟨-, ⟨-, -, -, hmiss⟩, ht⟩ := exec_eq_next.1 hexec
  obtain ⟨hout, hparams⟩ := sameRest_of_exec_eq_next hexec
  have hpct : t.pc.toNat = s.pc.toNat + 4 := by rw [ht, stateAfter_pc, hpc4]
  have htext' := textInMem_of_writesExactly hparams (writesExactly_of_exec_eq_next hwf hexec) hmiss htext
  have hrunning : t.outcome = .running := hout.trans hrun
  refine ⟨wf_of_exec_eq_next hwf hexec, hparams ▸ halign, hparams ▸ hfits, htext', hparams ▸ hagent, hparams ▸ hxo,
    ?_, ?_, by omega, by simp [hrunning]⟩
  · rw [hparams]; omega
  · rw [hparams]; omega

end

/-! ## The obligations -/

/-- Settles O47: a step that answers a next state exits at the end of the text, or completes an instruction whose store
missed the text. -/
theorem stepKeepsInvariant : Obligations.StepKeepsInvariant := by
  intro s t hinv hs
  obtain ⟨hrun, -, ⟨he, rfl⟩ | ⟨he, -, i, -, hexec⟩⟩ := step_eq_next.1 hs
  · exact machineInv_exit hinv he
  · exact machineInv_of_exec_eq_next hinv hrun he hexec

/-- Settles O10: the index is a multiple of 2^(SH+1), and so of every size's part of it. -/
theorem addressKeepsBaseAlignment : Obligations.AddressKeepsBaseAlignment := by
  rintro i s _ rfl
  have hmod := operandAddress_modEq_base i s
  refine ⟨hmod, fun n hn haligned => ?_⟩
  exact Eq.trans (hmod.of_dvd (min_size_dvd_scale n hn i.sh)) haligned

/-- Settles O11: the checks in their order, then the bytes. -/
theorem memWriteChecksThenWrites : Obligations.MemWriteChecksThenWrites := by
  intro s addr n v _ hwf
  refine ⟨fun hw => memWrite_of_refused v (storeCheck_of_wrap hw),
    fun hw hz hmis => memWrite_of_fault v (storeCheck_of_misaligned_fault hw hz hmis),
    fun hw hz hmis => memWrite_of_refused v (storeCheck_of_misaligned_refuse hw hz hmis), fun hw hz => ⟨?_, ?_⟩⟩
  · exact fun hadm => memWrite_of_fault v (storeCheck_of_not_admitted hw hz hadm)
  · intro hadm
    refine ⟨fun hmeets => ?_, fun hmiss => ?_⟩
    · exact memWrite_of_refused v (storeCheck_of_meetsText hw hz hadm (meetsText_iff.2 hmeets))
    · have ok : StoreOk s addr n := ⟨hw, hz, hadm, meetsText_eq_false.2 hmiss⟩
      exact ⟨_, memWrite_of_ok v ok, rfl, rfl, ⟨rfl, rfl⟩, writesExactly_memAfter v hwf hw⟩

/-- Settles O12, for every size and at every natural address. -/
theorem memReadTakesBytesInOrder : Obligations.MemReadTakesBytesInOrder :=
  fun s addr _ _ hj => byteAt_memRead s addr hj

/-- Settles O13: the mixed-width view of all n bytes. -/
theorem memReadReturnsWhatMemWriteStored : Obligations.MemReadReturnsWhatMemWriteStored := by
  intro s t addr n v hwf hwrite
  obtain ⟨ok, rfl⟩ := memWrite_eq_next.1 hwrite
  simpa using memRead_memAfter (k := 0) (m := n) v hwf ok.1 (by omega)

/-- Settles O14: the halfword and the byte are slices of the word, at either end by the byte order. -/
theorem mixedWidthViewOfWord : Obligations.MixedWidthViewOfWord := by
  intro s a hwf ok
  have hhalf := memRead_memAfter (k := 0) (m := 2) 0x89ABCDEF#32 hwf ok.1 (by omega)
  have hbyte := memRead_memAfter (k := 3) (m := 1) 0x89ABCDEF#32 hwf ok.1 (by omega)
  refine ⟨_, memWrite_of_ok _ ok, fun hbe => ?_, fun hle => ?_⟩
  · rw [if_pos hbe] at hhalf hbyte
    exact ⟨hhalf, hbyte⟩
  · rw [if_neg (by simp [hle])] at hhalf hbyte
    exact ⟨hhalf, hbyte⟩

/-- Settles O15: the second store passes the same checks and leaves the same canonical storage. -/
theorem memWriteTwiceIsOnce : Obligations.MemWriteTwiceIsOnce := by
  intro s t addr n v hwf hwrite
  obtain ⟨ok, rfl⟩ := memWrite_eq_next.1 hwrite
  have hstate : s.withMem (memAfter s addr n v) = (s.withMem (memAfter s addr n v)).withMem
      (memAfter (s.withMem (memAfter s addr n v)) addr n v) := by
    rw [memAfter_memAfter v hwf ok.1]; rfl
  exact memWrite_eq_next.2 ⟨(storeOk_congr rfl).1 ok, hstate⟩

/-- Settles O16: each completed store writes exactly its operand over canonical storage, and a recorded stop writes none. -/
theorem storesComposeByteByByte : Obligations.StoresComposeByteByByte := by
  intro i j s hwf
  refine ⟨fun t ht => ?_, record_mem_of_ne_next⟩
  have hfirst := writesExactly_of_exec_eq_next hwf ht
  refine ⟨hfirst, fun u hu a => ?_⟩
  rw [writesExactly_of_exec_eq_next (wf_of_exec_eq_next hwf ht) hu a, hfirst a]

/-- Settles O48: the text stands in storage as loaded, so the fetch reads its word, and `pc` is neither at the end of the
text nor at the top of the address space. -/
theorem stepExecutesTheText : Obligations.StepExecutesTheText := by
  intro s k hk i hinv hrun hpc
  obtain ⟨-, -, hfits, htext, hagent, -⟩ := hinv
  have hfetch : fetchWord s = s.params.text[k] := by rw [fetchWord, hpc]; exact memRead_text htext hk
  refine ⟨hfetch, fun hdecode => ?_⟩
  simp only [TextFits, textEnd] at hfits
  have hnotEnd : atTextEnd s = false := decide_eq_false (by rw [textEnd]; omega)
  have hnotTop : pcAtTop s = false := decide_eq_false (by omega)
  exact step_of_decode hrun hagent hnotEnd hnotTop (by rw [hfetch, hdecode])

end Sys2Proof.Machine

/-! PROOFS. The encoding (30_encoding.md): the branches of the decoding procedure, words by mask and match, the round trips,
and the first step on a loaded word. -/

namespace Sys2Proof

section
variable {t : XoTable} {w : Word} {m : Mnemonic}

/-! ## The branches of the decoding procedure (R68) -/

/-- A word with no mnemonic's primary and extended opcode is not in scope. -/
theorem decode_of_no_mnemonic (h : ∀ m, ¬ (fieldPO w = poStshift ∧ fieldXO w = t.get m)) :
    decode t w = .reject .notInScope := by
  unfold decode
  by_cases hpo : fieldPO w = poStshift
  · have hlookup : xoLookup t (fieldXO w) = none := xoLookup_eq_none.2 fun m hm => h m ⟨hpo, hm.symm⟩
    rw [if_neg (not_not.2 hpo), hlookup]
  · rw [if_pos hpo]

/-- The reserved bit is looked at first in a word with the opcodes of a mnemonic (R67). -/
theorem decode_of_reserved_bit (hpo : fieldPO w = poStshift) (hxo : xoLookup t (fieldXO w) = some m)
    (h31 : fieldR31 w = 1#1) : decode t w = .reject .reservedBitSet := by
  simp [decode, hpo, hxo, h31]

/-- RA = 0 in an update form is the invalid form (R69). -/
theorem decode_of_update_ra_zero (hpo : fieldPO w = poStshift) (hxo : xoLookup t (fieldXO w) = some m)
    (h31 : fieldR31 w = 0#1) (hu : m.isUpdate = true) (hra : regOfBits (fieldRA w) = 0) :
    decode t w = .reject .invalidForm := by
  simp [decode, hpo, hxo, h31, hu, hra]

/-! ## Mask and match -/

/-- A mask of PO, XO and perhaps the reserved bit compares these fields and no operand field. -/
theorem and_xForm_mask_iff {po : BitVec 6} {xo : BitVec 8} {r31 : BitVec 1} :
    w &&& xForm (BitVec.allOnes 6) 0#5 0#5 0#5 0#2 (BitVec.allOnes 8) r31 = xForm po 0#5 0#5 0#5 0#2 xo 0#1 ↔
      fieldPO w = po ∧ fieldXO w = xo ∧ fieldR31 w &&& r31 = 0#1 := by
  rw [word_eq_iff_fields]
  simp [fields_and, -BitVec.reduceAllOnes]

/-- The mask of PO and XO selects the words with the primary and the extended opcode of the mnemonic. -/
theorem and_opcodeMask_eq_matchWord :
    w &&& 0xFC0001FE#32 = matchWord t m ↔ fieldPO w = poStshift ∧ fieldXO w = t.get m := by
  have hmask : 0xFC0001FE#32 = xForm (BitVec.allOnes 6) 0#5 0#5 0#5 0#2 (BitVec.allOnes 8) 0#1 := by decide
  rw [hmask, matchWord_eq_xForm, and_xForm_mask_iff]
  simp

/-- The mask of the table selects, of those words, the ones whose reserved bit is 0. -/
theorem and_tableMask_eq_matchWord : w &&& 0xFC0001FF#32 = matchWord t m ↔
    (fieldPO w = poStshift ∧ fieldXO w = t.get m) ∧ fieldR31 w = 0#1 := by
  have hmask : 0xFC0001FF#32 = xForm (BitVec.allOnes 6) 0#5 0#5 0#5 0#2 (BitVec.allOnes 8) (BitVec.allOnes 1) := by
    decide
  rw [hmask, matchWord_eq_xForm, and_xForm_mask_iff, BitVec.and_allOnes, and_assoc]

/-- Bit 0 is clear exactly where the reserved field is 0. -/
theorem getLsbD_zero_eq_false_iff : w.getLsbD 0 = false ↔ fieldR31 w = 0#1 := by
  rw [← bit_ne_one, ne_eq, ← getLsbD_zero_iff, Bool.not_eq_true]

/-! ## The round trips -/

/-- What the encoded word of any instruction decodes to: the instruction itself, or the invalid form of R69. -/
theorem decode_encode (h : t.Distinct) (i : Instr) :
    decode t (encode t i) = if i.WellFormed then .instr i else .reject .invalidForm := by
  obtain ⟨hpo, hrs, hra, hrb, hsh, hxo, h31⟩ := Laws.encoded_fields i t
  have hlookup : xoLookup t (fieldXO (encode t i)) = some i.mnemonic := by rw [hxo, xoLookup_get h]
  by_cases hw : i.WellFormed
  · rw [if_pos hw, decode_eq_instr]
    refine ⟨hpo, i.mnemonic, hlookup, bit_ne_one.2 h31, ?_, ?_⟩
    · rwa [hra]
    · rw [hrs, hra, hrb, hsh, instrOf_parts]
  · obtain ⟨hu, hra0⟩ := not_not.1 hw
    rw [if_neg hw]
    exact decode_of_update_ra_zero hpo hlookup h31 hu (hra.trans hra0)

/-- A word that decodes is the encoded word of its instruction, under any table. -/
theorem encode_of_decode {i : Instr} (h : decode t w = .instr i) : encode t i = w := by
  obtain ⟨hpo, m, hxo, h31, -, rfl⟩ := decode_eq_instr.1 h
  calc encode t (instrOf m (regOfBits (fieldRS w)) (regOfBits (fieldRA w)) (regOfBits (fieldRB w)) (shOfBits (fieldSH w)))
      = xForm poStshift (fieldRS w) (fieldRA w) (fieldRB w) (fieldSH w) (t.get m) 0#1 := by simp [encode]
    _ = xForm (fieldPO w) (fieldRS w) (fieldRA w) (fieldRB w) (fieldSH w) (fieldXO w) (fieldR31 w) := by
      rw [hpo, get_of_xoLookup hxo, bit_ne_one.1 h31]
    _ = w := xForm_fields w

theorem decode_encode_of_wellFormed (h : t.Distinct) {i : Instr} (hw : i.WellFormed) :
    decode t (encode t i) = .instr i := by
  rw [decode_encode h, if_pos hw]

/-- A word written out as the X-Form of a well-formed instruction decodes to it where its XO field is the instruction's
extended opcode. -/
theorem decode_of_eq_xForm {x : BitVec 8} {i : Instr} (h : t.Distinct) (hx : t.get i.mnemonic = x)
    (hword : i.WellFormed ∧ w = xForm poStshift (regBits i.rs) (regBits i.ra) (regBits i.rb) (shBits i.sh) x 0#1) :
    decode t w = .instr i := by
  obtain ⟨hw, rfl⟩ := hword
  rw [← hx]
  exact decode_encode_of_wellFormed h hw

end

/-- The low 32 bits of a word's number are the word. -/
theorem ofNat_toNat_mod (w : Word) : BitVec.ofNat 32 (w.toNat % 2 ^ 32) = w := by
  rw [Nat.mod_eq_of_lt w.isLt, BitVec.ofNat_toNat, BitVec.setWidth_eq]

/-- The host's decoder question is the decoder on the word itself: laid out and read back, in either byte order. -/
theorem decodeTableWord_of_decode {w : Word} {i : Instr} (h : decode Config.xo w = .instr i) :
    decodeTableWord 32 w.toNat = some i := by
  have hfetched : decode Config.xo (Machine.loadValue Config.bigEndian 4 (Machine.storeBytes Config.bigEndian 4 w)) =
      .instr i := by rw [Machine.loadValue_storeBytes, h]
  simp only [decodeTableWord, ofNat_toNat_mod]
  rw [hfetched]

end Sys2Proof

namespace Sys2Proof.Machine

section
variable {s : State} {w : Word}

/-! ## The step on a loaded word -/

/-- Loading the low 32 bits of a word's number is loading the word. -/
theorem withFetchWord_toNat (s : State) (w : Word) : s.withFetchWord 32 w.toNat = placeWord s w := by
  rw [State.withFetchWord, ofNat_toNat_mod]

/-- The text that received a word at `pc` does not end at `pc`: the word stands there, or `pc` is outside the text. -/
theorem textEnd_textWithWord_ne (p : Params) (pc : Dword) (w : Word) :
    pc.toNat ≠ textEnd { p with text := textWithWord p pc w } := by
  unfold textWithWord
  split
  · simp only [textEnd, List.length_append, List.length_cons, List.length_take, List.length_drop] at *
    omega
  · simp only [textEnd] at *
    omega

theorem atTextEnd_placeWord (s : State) (w : Word) : atTextEnd (placeWord s w) = false :=
  decide_eq_false (textEnd_textWithWord_ne s.params s.pc w)

/-- The fetch reads the placed word, in either byte order (R44). -/
theorem fetchWord_placeWord (hm : s.mem.wf = true) (hpc : s.pc.toNat + 4 ≤ storageSize) :
    fetchWord (placeWord s w) = w := by
  have hbytes := readBytes_writeBytes (bs := storeBytes s.params.bigEndian 4 w) hm (by rwa [length_storeBytes])
  rw [length_storeBytes] at hbytes
  simp only [fetchWord, memRead, placeWord, hbytes]
  exact loadValue_storeBytes s.params.bigEndian 4 w

/-- The step after loading a word that decodes is the word's instruction (R105). -/
theorem step_placeWord {i : Instr} (hm : s.mem.wf = true) (ha : SingleAgent s.params)
    (hpc : s.pc.toNat + 4 < storageSize) (hd : decode s.params.xo w = .instr i) :
    step (placeWord s w) = exec i (placeWord s w) := by
  have hnotTop : pcAtTop (placeWord s w) = false := decide_eq_false (not_le.2 hpc)
  refine step_of_decode rfl ha (atTextEnd_placeWord s w) hnotTop ?_
  rw [fetchWord_placeWord hm hpc.le]
  exact hd

end

/-! ## The obligations -/

/-- Settles O1: the encoded word carries the instruction's fields, and its extended opcode finds its own mnemonic. -/
theorem decodeEncodeRoundTrip : Obligations.DecodeEncodeRoundTrip :=
  fun _ _ hdistinct hw => decode_encode_of_wellFormed hdistinct hw

/-- Settles O2: an accepted word has the primary opcode, the found extended opcode and a clear reserved bit, so it is the
X-Form of its own fields. -/
theorem encodeDecodeRoundTrip : Obligations.EncodeDecodeRoundTrip :=
  fun _ _ _ h => ⟨encode_of_decode h, wellFormed_of_decode h⟩

/-- Settles O3: mask and match compare the two opcode fields, so each clause is a branch of the decoding procedure. -/
theorem decodeFollowsMaskAndMatch : Obligations.DecodeFollowsMaskAndMatch := by
  intro t w hdistinct
  refine ⟨fun hnone => ?_, fun m hm => ?_, fun m => ?_⟩
  · exact decode_of_no_mnemonic fun m hm => hnone m (and_opcodeMask_eq_matchWord.2 hm)
  · obtain ⟨hpo, hxo⟩ := and_opcodeMask_eq_matchWord.1 hm
    have hlookup : xoLookup t (fieldXO w) = some m := by rw [hxo, xoLookup_get hdistinct]
    refine ⟨fun h31 => ?_, fun h31 hu hra => ?_, fun h31 hvalid => ?_⟩
    · exact decode_of_reserved_bit hpo hlookup (getLsbD_zero_iff.1 h31)
    · exact decode_of_update_ra_zero hpo hlookup (getLsbD_zero_eq_false_iff.1 h31) hu (regOfBits_eq_zero.2 hra)
    · have hr31 : fieldR31 w ≠ 1#1 := bit_ne_one.2 (getLsbD_zero_eq_false_iff.1 h31)
      have hform : ¬ (m.isUpdate = true ∧ regOfBits (fieldRA w) = 0) := by rwa [regOfBits_eq_zero]
      exact decode_eq_instr.2 ⟨hpo, m, hlookup, hr31, hform, rfl⟩
  · rw [and_tableMask_eq_matchWord, and_opcodeMask_eq_matchWord, getLsbD_zero_eq_false_iff]

/-- Settles O4: an instruction's encoded word decodes to the instruction where it is well-formed, to the invalid form where
it is not. -/
theorem invalidFormIsUpdateWithRaZero : Obligations.InvalidFormIsUpdateWithRaZero := by
  intro t i hdistinct
  rw [decode_encode hdistinct]
  by_cases hw : i.WellFormed
  · rw [if_pos hw]
    exact ⟨⟨nofun, fun h => absurd h hw⟩, fun _ => rfl⟩
  · rw [if_neg hw]
    exact ⟨⟨fun _ => not_not.1 hw, fun _ => rfl⟩, fun h => absurd rfl h⟩

/-- Settles O46: the launched machine's opcodes are distinct and its text base leaves room for the word, so the loaded word
is fetched, decodes to the instruction, and runs. -/
theorem resetRunsAnyInstruction : Obligations.ResetRunsAnyInstruction := by
  intro i hw
  have hdecode : decode Config.xo (encode Config.xo i) = .instr i :=
    decode_encode_of_wellFormed config_xo_distinct hw
  have hpc : State.reset.pc.toNat + 4 < storageSize := by
    obtain ⟨-, hroom⟩ := config_textBase_limits
    have hreset : State.reset.pc = Config.textBase := rfl
    rw [hreset]; omega
  refine ⟨decodeTableWord_of_decode hdecode, ?_⟩
  rw [withFetchWord_toNat]
  exact step_placeWord wf_nil rfl hpc hdecode

/-- Settles O5: each word is the X-Form of its well-formed instruction; 60000000 has another primary opcode. -/
theorem specWordsDecode : Obligations.SpecWordsDecode := by
  intro t hdistinct
  refine ⟨fun hxo => ?_, fun hxo => ?_, fun hxo => ?_, fun hxo => ?_, ?_⟩
  · exact decode_of_eq_xForm hdistinct hxo (by decide)
  · exact decode_of_eq_xForm hdistinct hxo (by decide)
  · exact decode_of_eq_xForm hdistinct hxo (by decide)
  · exact decode_of_eq_xForm hdistinct hxo (by decide)
  · have hpo : fieldPO 0x60000000#32 ≠ poStshift := by decide
    exact decode_of_no_mnemonic fun _ h => hpo h.1

end Sys2Proof.Machine

/-! PROOFS. Store byte, halfword and word (40_store_shifted.md): the effective address as a number, and of any instruction
its completion, its stops and its opcode fields. -/

namespace Sys2Proof.Machine

/-! ## The effective address as a number -/

/-- A base plus the scaled index, modulo 2^64 (R80, R81). -/
theorem toNat_add_scaledIndex (b : Dword) (s : State) (rb : RegNum) (sh : ShSel) :
    (b + scaledIndex s rb sh).toNat = (b.toNat + (s.readGpr rb).toNat * 2 ^ (sh.val + 1)) % 2 ^ 64 := by
  rw [BitVec.toNat_add, scaledIndex, toNat_shl64, Nat.add_mod_mod]

theorem toNat_baseOrZero (s : State) (ra : RegNum) :
    (baseOrZero s ra).toNat = if ra = 0 then 0 else (s.readGpr ra).toNat :=
  apply_ite BitVec.toNat _ _ _

/-- An index of `-k` is scaled to `-(k * 2^n)`. -/
theorem shl64_neg_ofNat (k n : Nat) : shl64 (-BitVec.ofNat 64 k) n = -BitVec.ofNat 64 (k * 2 ^ n) := by
  have hscaled : BitVec.ofNat 64 k <<< n = BitVec.ofNat 64 (k * 2 ^ n) := by
    apply BitVec.eq_of_toNat_eq
    simp [Nat.shiftLeft_eq]
  rw [shl64, BitVec.shiftLeft_neg, hscaled]

/-- A number `k` short of 2^64 is `-k`. -/
theorem eq_neg_ofNat_of_toNat {x : Dword} {k : Nat} (h1 : 1 ≤ k) (hk : k ≤ 2 ^ 64) (hx : x.toNat = 2 ^ 64 - k) :
    x = -BitVec.ofNat 64 k := by
  apply BitVec.eq_of_toNat_eq
  rw [hx, BitVec.toNat_neg, BitVec.toNat_ofNat]
  omega

section
variable {i : Instr} {s t : State}

/-! ## Completion -/

theorem wellFormed_of_not_isUpdate (hu : i.mnemonic.isUpdate = false) : i.WellFormed := by simp [hu]

theorem wellFormed_of_ra_ne_zero (hra : i.ra ≠ 0) : i.WellFormed := fun h => hra h.2

theorem exec_of_storeOk (hw : i.WellFormed) (ok : StoreOk s (operandAddress i s) (operandSize i.mnemonic)) :
    exec i s = .next (stateAfter i s) :=
  exec_eq_next.2 ⟨hw, ok, rfl⟩

/-- Only the bytes named inside the operand matter. -/
theorem WritesExactly.congr {ea : Dword} {n : Nat} {byte byte' : Nat → Byte} (h : WritesExactly s t ea n byte)
    (hbyte : ∀ k < n, byte k = byte' k) : WritesExactly s t ea n byte' := by
  intro a
  rw [h a]
  split
  · exact hbyte _ (by omega)
  · rfl

/-- A performed store without update completes (R80). -/
theorem completesIndexed_of_storeOk {byte : Nat → Byte} (hu : i.mnemonic.isUpdate = false) (hm : s.mem.wf = true)
    (hbyte : ∀ k < operandSize i.mnemonic, operandByte i s k = byte k)
    (ok : StoreOk s (operandAddress i s) (operandSize i.mnemonic)) :
    CompletesIndexed i s (operandAddress i s) (operandSize i.mnemonic) byte := by
  refine ⟨stateAfter i s, exec_of_storeOk (wellFormed_of_not_isUpdate hu) ok,
    (writesExactly_stateAfter i hm ok).congr hbyte, fun r => ?_, stateAfter_pc i s,
    stateAfter_outcome i s, stateAfter_params i s⟩
  rw [stateAfter_readGpr, if_neg (by simp [hu])]

/-- A performed store with update completes, and RA receives EA (R81). -/
theorem completesUpdate_of_storeOk {byte : Nat → Byte} (hu : i.mnemonic.isUpdate = true) (hm : s.mem.wf = true)
    (hbyte : ∀ k < operandSize i.mnemonic, operandByte i s k = byte k) (hra : i.ra ≠ 0)
    (ok : StoreOk s (operandAddress i s) (operandSize i.mnemonic)) :
    CompletesUpdate i s (operandAddress i s) (operandSize i.mnemonic) byte := by
  refine ⟨stateAfter i s, exec_of_storeOk (wellFormed_of_ra_ne_zero hra) ok,
    (writesExactly_stateAfter i hm ok).congr hbyte, fun r => ?_, stateAfter_pc i s,
    stateAfter_outcome i s, stateAfter_params i s⟩
  simp only [stateAfter_readGpr, hu, true_and]

/-- The operand of a plain store holds the low bytes of RS in the order of the run (20_memory.md rules R41 and R43). -/
theorem operandByte_of_not_isByteReverse (hr : isByteReverse i.mnemonic = false) (s : State) (k : Nat) :
    operandByte i s k =
      byteAt (s.readGpr i.rs) (if s.params.bigEndian = true then operandSize i.mnemonic - 1 - k else k) := by
  rw [operandByte, hr]
  cases s.params.bigEndian <;> rfl

/-- The operand of a one-byte store holds bits 7:0 of RS, in either byte order. -/
theorem operandByte_of_size_one (hn : operandSize i.mnemonic = 1) (s : State) :
    ∀ k < operandSize i.mnemonic, operandByte i s k = (s.readGpr i.rs).extractLsb' 0 8 := by
  intro k hk
  obtain rfl : k = 0 := by omega
  rw [operandByte, hn, ite_self]
  rfl

/-! ## Stops -/

theorem exec_of_storeCheck_fault {f : Fault} (hw : i.WellFormed)
    (h : storeCheck s (operandAddress i s) (operandSize i.mnemonic) = .fault f) : exec i s = .fault f := by
  rw [exec_stop, if_neg hw, h, andThen_fault]

theorem exec_of_storeCheck_refused {r : Refusal} (hw : i.WellFormed)
    (h : storeCheck s (operandAddress i s) (operandSize i.mnemonic) = .refused r) : exec i s = .refused r := by
  rw [exec_stop, if_neg hw, h, andThen_refused]

/-- RA = 0 in an update form is the fault InvalidForm, before any check of the operand (R81). -/
theorem exec_of_update_ra_zero (hu : i.mnemonic.isUpdate = true) (hra : i.ra = 0) :
    exec i s = .fault (.invalidForm (encode s.params.xo i) s.pc) := by
  rw [exec_stop, if_pos ⟨hu, hra⟩]

/-- A valid form stops as the checks of `MemWrite` do, in their order (20_memory.md rule R41). -/
theorem stopsInOrder_of_wellFormed (hw : i.WellFormed) :
    StopsInOrder i s (operandAddress i s) (operandSize i.mnemonic) :=
  ⟨fun hwrap => exec_of_storeCheck_refused hw (storeCheck_of_wrap hwrap),
    fun hfit hz hmis => exec_of_storeCheck_fault hw (storeCheck_of_misaligned_fault hfit hz hmis),
    fun hfit hz hmis => exec_of_storeCheck_refused hw (storeCheck_of_misaligned_refuse hfit hz hmis),
    fun hfit hz hadm => exec_of_storeCheck_fault hw (storeCheck_of_not_admitted hfit hz hadm),
    fun hfit hz hadm hmeets => exec_of_storeCheck_refused hw (storeCheck_of_meetsText hfit hz hadm hmeets)⟩

/-- One byte neither wraps nor is misaligned, so of the five stops two are left (R82). -/
theorem StopsInOrder.byteStops {ea : Dword} (h : StopsInOrder i s ea 1) : ByteStops i s ea := by
  obtain ⟨-, -, -, hadmit, htext⟩ := h
  have hfit : ea.toNat + 1 ≤ storageSize := ea.isLt
  have haligned : ea.toNat % 1 = 0 ∨ s.params.misalign = .perform := .inl (Nat.mod_one _)
  exact ⟨hadmit hfit haligned, htext hfit haligned⟩

theorem exec_ne_next_of_not_storeOk (h : ¬ StoreOk s (operandAddress i s) (operandSize i.mnemonic)) :
    exec i s ≠ .next t :=
  fun hnext => h (exec_eq_next.1 hnext).2.1

/-- A recorded stop leaves the registers as they were (60_exceptions.md rule R107). -/
theorem record_readGpr_of_ne_next {o : Host.Outcome State Fault Refusal} (h : ∀ t, o ≠ .next t) (r : RegNum) :
    (record s o).readGpr r = s.readGpr r := by
  cases o with
  | next t => exact absurd rfl (h t)
  | fault f => exact readGpr_withOutcome s r _
  | refused x => exact readGpr_withOutcome s r _

/-! ## Opcode fields -/

/-- The word of an instruction has the group's primary opcode, its own extended opcode, and bit 31 = 0. -/
theorem encodedWith_get (i : Instr) : EncodedWith i fun t => t.get i.mnemonic := by
  intro t
  obtain ⟨hpo, -, -, -, -, hxo, h31⟩ := Laws.encoded_fields i t
  exact ⟨hpo, hxo, h31⟩

/-! ## The rule of a store of either shape -/

/-- A store without update, whole: it completes where it is performed, stops in order otherwise, and its word has its
opcode fields. -/
theorem indexedStore_rule {byte : Nat → Byte} (i : Instr) (hu : i.mnemonic.isUpdate = false) (hm : s.mem.wf = true)
    (hbyte : ∀ k < operandSize i.mnemonic, operandByte i s k = byte k) :
    (StoreOk s (operandAddress i s) (operandSize i.mnemonic) →
      CompletesIndexed i s (operandAddress i s) (operandSize i.mnemonic) byte) ∧
    StopsInOrder i s (operandAddress i s) (operandSize i.mnemonic) ∧ EncodedWith i fun t => t.get i.mnemonic :=
  ⟨completesIndexed_of_storeOk hu hm hbyte, stopsInOrder_of_wellFormed (wellFormed_of_not_isUpdate hu),
    encodedWith_get i⟩

/-- A store with update, whole: RA = 0 is the invalid form, and otherwise it completes or stops in order. -/
theorem updateStore_rule {byte : Nat → Byte} (i : Instr) (hu : i.mnemonic.isUpdate = true) (hm : s.mem.wf = true)
    (hbyte : ∀ k < operandSize i.mnemonic, operandByte i s k = byte k) :
    (i.ra ≠ 0 → StoreOk s (operandAddress i s) (operandSize i.mnemonic) →
      CompletesUpdate i s (operandAddress i s) (operandSize i.mnemonic) byte) ∧
    (i.ra = 0 → exec i s = .fault (.invalidForm (encode s.params.xo i) s.pc)) ∧
    (i.ra ≠ 0 → StopsInOrder i s (operandAddress i s) (operandSize i.mnemonic)) ∧
    EncodedWith i fun t => t.get i.mnemonic :=
  ⟨completesUpdate_of_storeOk hu hm hbyte, exec_of_update_ra_zero hu,
    fun hra => stopsInOrder_of_wellFormed (wellFormed_of_ra_ne_zero hra), encodedWith_get i⟩

end

/-! ## The obligations -/

/-- Settles O8: the scaled index is a product modulo 2^64, and an index of 2^64 - k is `-k`. -/
theorem indexedAddressFormula : Obligations.IndexedAddressFormula := by
  intro s ra rb sh
  refine ⟨?_, fun k h1 hk hrb => ?_⟩
  · rw [eaIndexed, toNat_add_scaledIndex, toNat_baseOrZero]
  · rw [eaIndexed, scaledIndex, eq_neg_ofNat_of_toNat h1 hk hrb, shl64_neg_ofNat, ← BitVec.sub_eq_add_neg, baseOrZero]

/-- Settles O9: the write of RA is part of the completed state alone, and a stop is recorded over the registers as they
were. -/
theorem updateFormsWriteBackAddress : Obligations.UpdateFormsWriteBackAddress := by
  intro i s hu hm
  refine ⟨exec_of_update_ra_zero hu, ?_, fun hra ok => ?_, fun hstop => ?_⟩
  · rw [operandAddress_of_isUpdate hu, eaUpdate, toNat_add_scaledIndex]
  · obtain ⟨t, hexec, hwrites, hregs, -⟩ := completesUpdate_of_storeOk hu hm (fun _ _ => rfl) hra ok
    exact ⟨t, hexec, by rw [hregs, if_pos rfl], hwrites⟩
  · have hne : ∀ t, exec i s ≠ .next t := fun _ => exec_ne_next_of_not_storeOk hstop
    exact ⟨hne, record_readGpr_of_ne_next hne i.ra⟩

/-- Settles O18: a one-byte store without update. -/
theorem stbsxStoresLowByte : Obligations.StbsxStoresLowByte := by
  intro rs ra rb sh s hm
  obtain ⟨hcompletes, hstops, hword⟩ :=
    indexedStore_rule (.stbsx rs ra rb sh) rfl hm (operandByte_of_size_one rfl s)
  exact ⟨hcompletes, hstops.byteStops, hword⟩

/-- Settles O19: a one-byte store with update. -/
theorem stbsuxStoresLowByteAndUpdates : Obligations.StbsuxStoresLowByteAndUpdates := by
  intro rs ra rb sh s hm
  obtain ⟨hcompletes, hinvalid, hstops, hword⟩ :=
    updateStore_rule (.stbsux rs ra rb sh) rfl hm (operandByte_of_size_one rfl s)
  exact ⟨hcompletes, hinvalid, fun hra => (hstops hra).byteStops, hword⟩

/-- Settles O20: a plain two-byte store without update. -/
theorem sthsxStoresLowHalfword : Obligations.SthsxStoresLowHalfword := fun rs ra rb sh s hm =>
  indexedStore_rule (.sthsx rs ra rb sh) rfl hm fun k _ => operandByte_of_not_isByteReverse rfl s k

/-- Settles O21: a plain two-byte store with update. -/
theorem sthsuxStoresLowHalfwordAndUpdates : Obligations.SthsuxStoresLowHalfwordAndUpdates := fun rs ra rb sh s hm =>
  updateStore_rule (.sthsux rs ra rb sh) rfl hm fun k _ => operandByte_of_not_isByteReverse rfl s k

/-- Settles O22: a plain four-byte store without update. -/
theorem stwsxStoresLowWord : Obligations.StwsxStoresLowWord := fun rs ra rb sh s hm =>
  indexedStore_rule (.stwsx rs ra rb sh) rfl hm fun k _ => operandByte_of_not_isByteReverse rfl s k

/-- Settles O23: a plain four-byte store with update. -/
theorem stwsuxStoresLowWordAndUpdates : Obligations.StwsuxStoresLowWordAndUpdates := fun rs ra rb sh s hm =>
  updateStore_rule (.stwsux rs ra rb sh) rfl hm fun k _ => operandByte_of_not_isByteReverse rfl s k

end Sys2Proof.Machine

/-! PROOFS. Store doubleword (41_store_doubleword_shifted.md): the rule of a store of either shape, at eight bytes. -/

namespace Sys2Proof.Machine

/-- Settles O24: a plain eight-byte store without update. -/
theorem stdsxStoresDoubleword : Obligations.StdsxStoresDoubleword := fun rs ra rb sh s hm =>
  indexedStore_rule (.stdsx rs ra rb sh) rfl hm fun k _ => operandByte_of_not_isByteReverse rfl s k

/-- Settles O25: a plain eight-byte store with update. -/
theorem stdsuxStoresDoublewordAndUpdates : Obligations.StdsuxStoresDoublewordAndUpdates := fun rs ra rb sh s hm =>
  updateStore_rule (.stdsux rs ra rb sh) rfl hm fun k _ => operandByte_of_not_isByteReverse rfl s k

end Sys2Proof.Machine

/-! PROOFS. Store byte-reverse (42_store_byte_reverse_shifted.md): the bytes of a byte-reverse store, and the plain store of
the same width under the other byte order. -/

namespace Sys2Proof.Machine

/-! ## The bytes of a byte-reverse store -/

/-- The operand of a byte-reverse store holds the low bytes of RS in the order opposite to the run's (R95). -/
theorem operandByte_of_isByteReverse {i : Instr} (hr : isByteReverse i.mnemonic = true) (s : State) (k : Nat) :
    operandByte i s k =
      byteAt (s.readGpr i.rs) (if s.params.bigEndian = true then k else operandSize i.mnemonic - 1 - k) := by
  rw [operandByte, hr]

/-- The bytes `MemWrite` lays out for an instruction are the bytes of its operand, in ascending order of address. -/
theorem storeBytes_operandValue (i : Instr) (s : State) :
    storeBytes s.params.bigEndian (operandSize i.mnemonic) (operandValue i s) =
      (List.range (operandSize i.mnemonic)).map (operandByte i s) :=
  List.map_congr_left fun _ hk => byteAt_operandValue i s (List.mem_range.1 hk)

theorem memAfterInstr_eq_writeBytes (i : Instr) (s : State) : memAfterInstr i s =
    s.mem.writeBytes (operandAddress i s).toNat ((List.range (operandSize i.mnemonic)).map (operandByte i s)) := by
  rw [memAfterInstr, memAfter, storeBytes_operandValue]

/-! ## The other byte order -/

/-- The same state with BIG_ENDIAN flipped. -/
def State.otherOrder (s : State) : State :=
  { s with params := { s.params with bigEndian := !s.params.bigEndian } }

section
variable (s : State)

@[simp] theorem otherOrder_mem : s.otherOrder.mem = s.mem := rfl
@[simp] theorem otherOrder_bigEndian : s.otherOrder.params.bigEndian = !s.params.bigEndian := rfl
@[simp] theorem readGpr_otherOrder (r : RegNum) : s.otherOrder.readGpr r = s.readGpr r := rfl
@[simp] theorem eaIndexed_otherOrder (ra rb : RegNum) (sh : ShSel) :
    eaIndexed s.otherOrder ra rb sh = eaIndexed s ra rb sh := rfl

/-- No check of a store looks at the byte order. -/
theorem storeOk_otherOrder (ea : Dword) (n : Nat) : StoreOk s.otherOrder ea n ↔ StoreOk s ea n := Iff.rfl

end

/-- `i` is a byte-reverse store and `j` the plain store without update of the same width and operands (R95). -/
structure ByteReverseOf (i j : Instr) : Prop where
  isByteReverse_eq : isByteReverse i.mnemonic = true
  plain : isByteReverse j.mnemonic = false
  isUpdate_eq : i.mnemonic.isUpdate = false
  plain_isUpdate : j.mnemonic.isUpdate = false
  size_eq : operandSize j.mnemonic = operandSize i.mnemonic
  rs_eq : j.rs = i.rs
  ra_eq : j.ra = i.ra
  rb_eq : j.rb = i.rb
  sh_eq : j.sh = i.sh

namespace ByteReverseOf
variable {i j : Instr} {s t : State}

theorem operandAddress_eq (h : ByteReverseOf i j) (s : State) : operandAddress j s.otherOrder = operandAddress i s := by
  rw [operandAddress_of_not_isUpdate h.plain_isUpdate, operandAddress_of_not_isUpdate h.isUpdate_eq,
    eaIndexed_otherOrder, h.ra_eq, h.rb_eq, h.sh_eq]

/-- Reversing the bytes and reversing the byte order come to the same byte of RS. -/
theorem operandByte_eq (h : ByteReverseOf i j) (s : State) : operandByte j s.otherOrder = operandByte i s := by
  funext k
  rw [operandByte_of_not_isByteReverse h.plain, operandByte_of_isByteReverse h.isByteReverse_eq, readGpr_otherOrder,
    otherOrder_bigEndian, h.rs_eq, h.size_eq]
  cases s.params.bigEndian <;> rfl

theorem memAfterInstr_eq (h : ByteReverseOf i j) (s : State) : memAfterInstr j s.otherOrder = memAfterInstr i s := by
  rw [memAfterInstr_eq_writeBytes, memAfterInstr_eq_writeBytes, h.operandAddress_eq, h.operandByte_eq, h.size_eq,
    otherOrder_mem]

/-- Where the byte-reverse store completes, no register changed, and the plain store completes under the other order with
the same storage. -/
theorem exec_plain_otherOrder (h : ByteReverseOf i j) (ht : exec i s = .next t) :
    t.gpr = s.gpr ∧ ∃ u, exec j s.otherOrder = .next u ∧ u.mem = t.mem := by
  obtain ⟨-, ok, rfl⟩ := exec_eq_next.1 ht
  have okPlain : StoreOk s.otherOrder (operandAddress j s.otherOrder) (operandSize j.mnemonic) := by
    rwa [storeOk_otherOrder, h.operandAddress_eq, h.size_eq]
  refine ⟨stateAfter_gpr_of_not_isUpdate h.isUpdate_eq s, stateAfter j s.otherOrder,
    exec_of_storeOk (wellFormed_of_not_isUpdate h.plain_isUpdate) okPlain, ?_⟩
  rw [stateAfter_mem, stateAfter_mem, h.memAfterInstr_eq]

end ByteReverseOf

section
variable (rs ra rb : RegNum) (sh : ShSel)

theorem byteReverseOf_sthsx : ByteReverseOf (.sthbrsx rs ra rb sh) (.sthsx rs ra rb sh) := by constructor <;> rfl
theorem byteReverseOf_stwsx : ByteReverseOf (.stwbrsx rs ra rb sh) (.stwsx rs ra rb sh) := by constructor <;> rfl
theorem byteReverseOf_stdsx : ByteReverseOf (.stdbrsx rs ra rb sh) (.stdsx rs ra rb sh) := by constructor <;> rfl

end

/-! ## The obligations -/

/-- Settles O17: each of the three pairs is a byte-reverse store and its plain store. -/
theorem byteReverseIsOtherByteOrder : Obligations.ByteReverseIsOtherByteOrder := by
  intro rs ra rb sh s other p hp t ht
  have hpair : ByteReverseOf p.1 p.2 := by
    simp only [List.mem_cons, List.not_mem_nil, or_false] at hp
    obtain rfl | rfl | rfl := hp
    · exact byteReverseOf_sthsx rs ra rb sh
    · exact byteReverseOf_stwsx rs ra rb sh
    · exact byteReverseOf_stdsx rs ra rb sh
  exact hpair.exec_plain_otherOrder ht

/-- Settles O26: a byte-reverse two-byte store. -/
theorem sthbrsxStoresReversedHalfword : Obligations.SthbrsxStoresReversedHalfword := fun rs ra rb sh s hm =>
  indexedStore_rule (.sthbrsx rs ra rb sh) rfl hm fun k _ => operandByte_of_isByteReverse rfl s k

/-- Settles O27: a byte-reverse four-byte store. -/
theorem stwbrsxStoresReversedWord : Obligations.StwbrsxStoresReversedWord := fun rs ra rb sh s hm =>
  indexedStore_rule (.stwbrsx rs ra rb sh) rfl hm fun k _ => operandByte_of_isByteReverse rfl s k

/-- Settles O28: a byte-reverse eight-byte store. -/
theorem stdbrsxStoresReversedDoubleword : Obligations.StdbrsxStoresReversedDoubleword := fun rs ra rb sh s hm =>
  indexedStore_rule (.stdbrsx rs ra rb sh) rfl hm fun k _ => operandByte_of_isByteReverse rfl s k

end Sys2Proof.Machine

/-! PROOFS. The step and its stops (60_exceptions.md): the checks of a step up to the decoded instruction, the causes of
its faults and refusals, and that a recorded stop changes the outcome alone. -/

namespace Sys2Proof

/-! ## The decoder: the accepted word, and why a word is rejected -/

/-- The cause of each rejection, over the fields of the word (30_encoding.md rule R68). -/
def RejectCause (t : XoTable) (w : Word) : Reject → Prop
  | .notInScope => fieldPO w ≠ poStshift ∨ ∀ m, t.get m ≠ fieldXO w
  | .reservedBitSet => fieldR31 w = 1#1 ∧ fieldPO w = poStshift ∧ ∃ m, t.get m = fieldXO w
  | .invalidForm => ∃ m : Mnemonic, m.isUpdate = true ∧ fieldPO w = poStshift ∧ fieldXO w = t.get m ∧ fieldRA w = 0#5

/-- A rejected word has the cause of its rejection. -/
theorem rejectCause_of_decode {t : XoTable} {w : Word} {r : Reject} (h : decode t w = .reject r) :
    RejectCause t w r := by
  unfold decode at h
  split at h
  · next hpo => cases h; exact .inl hpo
  · next hpo =>
    replace hpo : fieldPO w = poStshift := not_not.1 hpo
    split at h
    · next hnone => cases h; exact .inr (xoLookup_eq_none.1 hnone)
    · next m hm =>
      have hxo : t.get m = fieldXO w := get_of_xoLookup hm
      split_ifs at h with h31 hform
      · cases h; exact ⟨h31, hpo, m, hxo⟩
      · cases h; exact ⟨m, hform.1, hpo, hxo.symm, regOfBits_eq_zero.1 hform.2⟩

/-- A word with a mnemonic's opcodes and a clear reserved bit that is no update form with RA = 0 is the mnemonic's
instruction with the operands of its fields. -/
theorem decode_of_valid_form {t : XoTable} {w : Word} {m : Mnemonic} (hpo : fieldPO w = poStshift)
    (hxo : xoLookup t (fieldXO w) = some m) (h31 : fieldR31 w = 0#1) (hvalid : m.isUpdate = false ∨ fieldRA w ≠ 0#5) :
    decode t w = .instr (instrOf m (regOfBits (fieldRS w)) (regOfBits (fieldRA w)) (regOfBits (fieldRB w))
      (shOfBits (fieldSH w))) := by
  refine decode_eq_instr.2 ⟨hpo, m, hxo, bit_ne_one.2 h31, ?_, rfl⟩
  rintro ⟨hu, hra⟩
  exact hvalid.elim (by simp [hu]) (fun h => h (regOfBits_eq_zero.1 hra))

end Sys2Proof

namespace Sys2Proof.Machine

section
variable {s : State} {i : Instr} {f : Fault} {r : Refusal}

/-! ## The checks of a step before the instruction (R105, items 1 to 5) -/

theorem step_of_otherAgents (ho : s.outcome = .running) (ha : s.params.otherAgents ≠ 0) :
    step s = .refused (.secondAgent s.pc) := by
  simp [step, runCycle, ho, ha]

theorem step_of_atTextEnd (ho : s.outcome = .running) (ha : SingleAgent s.params) (he : atTextEnd s = true) :
    step s = .next (s.withOutcome .exited) := by
  simp [step, runCycle, ho, ha, he]

/-- Where the next step fetches, the two checks of `pc` pass. -/
theorem pc_checks_of_canFetch (h : CanFetch s) : atTextEnd s = false ∧ pcAtTop s = false := by
  obtain ⟨-, -, hend, htop⟩ := h
  exact ⟨decide_eq_false hend, decide_eq_false (not_le.2 htop)⟩

theorem step_of_canFetch_instr (h : CanFetch s) (hd : decode s.params.xo (fetchWord s) = .instr i) :
    step s = exec i s := by
  obtain ⟨hend, htop⟩ := pc_checks_of_canFetch h
  obtain ⟨hrun, hagent, -, -⟩ := h
  exact step_of_decode hrun hagent hend htop hd

theorem step_of_canFetch_reject {x : Reject} (h : CanFetch s) (hd : decode s.params.xo (fetchWord s) = .reject x) :
    step s = rejectOutcome x (fetchWord s) s.pc := by
  obtain ⟨hend, htop⟩ := pc_checks_of_canFetch h
  obtain ⟨hrun, hagent, -, -⟩ := h
  simp [step, runCycle, hrun, hagent, hend, htop, hd]

/-! ## A stop by where it comes from -/

section
variable {α β : Type} {o : Host.Outcome α Fault Refusal} {k : α → β}

/-- What follows a completed operation without a stop of its own adds no stop. -/
theorem andThen_next_eq_fault : (andThen o fun a => .next (k a)) = .fault f ↔ o = .fault f := by
  cases o <;> simp

theorem andThen_next_eq_refused : (andThen o fun a => .next (k a)) = .refused r ↔ o = .refused r := by
  cases o <;> simp

end

/-- The faults of `MemWrite`, each with its cause (R102, R103). -/
theorem storeCheck_fault_cause {addr : Dword} {n : Nat} (h : storeCheck s addr n = .fault f) :
    (f = .alignmentFault addr n s.pc ∧ addr.toNat % n ≠ 0 ∧ s.params.misalign = .fault) ∨
      (f = .storageFault addr n s.pc ∧ admits s.params addr n = false) := by
  have hcases := storeCheck_cases s addr n
  simpa [h] using hcases

/-- The refusals of `MemWrite`, each with its cause (R104). -/
theorem storeCheck_refused_cause {addr : Dword} {n : Nat} (h : storeCheck s addr n = .refused r) :
    (r = .addressWrap addr s.pc ∧ storageSize < addr.toNat + n) ∨
      (r = .misalignedRefused addr n s.pc ∧ addr.toNat % n ≠ 0 ∧ s.params.misalign = .refuse) ∨
      (r = .textOverwritten addr n s.pc ∧ meetsText s.params addr n = true) := by
  have hcases := storeCheck_cases s addr n
  simpa [h] using hcases

/-- A fault of an instruction: the invalid form, or a fault of its store's checks. -/
theorem exec_fault_cases (h : exec i s = .fault f) :
    f = .invalidForm (encode s.params.xo i) s.pc ∨
      storeCheck s (operandAddress i s) (operandSize i.mnemonic) = .fault f := by
  rw [exec_stop] at h
  split at h
  · cases h; exact .inl rfl
  · exact .inr (andThen_next_eq_fault.1 h)

/-- A StorageFault of an instruction names its operand, which is not admitted (R102). -/
theorem exec_storageFault_cause {ea p : Dword} {n : Nat} (h : exec i s = .fault (.storageFault ea n p)) :
    ea = operandAddress i s ∧ n = operandSize i.mnemonic ∧ p = s.pc ∧ admits s.params ea n = false := by
  obtain hinvalid | hcheck := exec_fault_cases h
  · cases hinvalid
  · obtain ⟨hf, -⟩ | ⟨hf, hadm⟩ := storeCheck_fault_cause hcheck <;> cases hf
    exact ⟨rfl, rfl, rfl, hadm⟩

/-- An AlignmentFault of an instruction names its operand, which is misaligned, under `MISALIGN = fault` (R103). -/
theorem exec_alignmentFault_cause {ea p : Dword} {n : Nat} (h : exec i s = .fault (.alignmentFault ea n p)) :
    ea = operandAddress i s ∧ n = operandSize i.mnemonic ∧ p = s.pc ∧ ea.toNat % n ≠ 0 ∧
      s.params.misalign = .fault := by
  obtain hinvalid | hcheck := exec_fault_cases h
  · cases hinvalid
  · obtain ⟨hf, hz, hmis⟩ | ⟨hf, -⟩ := storeCheck_fault_cause hcheck <;> cases hf
    exact ⟨rfl, rfl, rfl, hz, hmis⟩

/-- A fault of a step: the word rejected as the invalid form, or a fault of the decoded instruction's store. -/
theorem step_fault_cases (ho : s.outcome = .running) (ha : SingleAgent s.params) (h : step s = .fault f) :
    (f = .invalidForm (fetchWord s) s.pc ∧ decode s.params.xo (fetchWord s) = .reject .invalidForm) ∨
      ∃ i, decode s.params.xo (fetchWord s) = .instr i ∧
        storeCheck s (operandAddress i s) (operandSize i.mnemonic) = .fault f := by
  obtain ⟨-, hs⟩ | ⟨-, hs⟩ | ⟨x, hd, hs⟩ | ⟨i, hd, -, -, -, hs⟩ := step_cases ho ha
  · rw [hs] at h; cases h
  · rw [hs] at h; cases h
  · rw [hs] at h
    cases x <;> cases h
    exact .inl ⟨rfl, hd⟩
  · rw [hs] at h
    exact .inr ⟨i, hd, andThen_next_eq_fault.1 h⟩

/-- A refusal of a step: at the top of the address space, of the word, or of the decoded instruction's store. -/
theorem step_refused_cases (ho : s.outcome = .running) (ha : SingleAgent s.params) (h : step s = .refused r) :
    (r = .addressWrap s.pc s.pc ∧ storageSize ≤ s.pc.toNat + 4) ∨
      (r = .notInScope (fetchWord s) s.pc ∧ decode s.params.xo (fetchWord s) = .reject .notInScope) ∨
      (r = .reservedBitSet (fetchWord s) s.pc ∧ decode s.params.xo (fetchWord s) = .reject .reservedBitSet) ∨
      ∃ i, decode s.params.xo (fetchWord s) = .instr i ∧
        storeCheck s (operandAddress i s) (operandSize i.mnemonic) = .refused r := by
  obtain ⟨-, hs⟩ | ⟨htop, hs⟩ | ⟨x, hd, hs⟩ | ⟨i, hd, -, -, -, hs⟩ := step_cases ho ha
  · rw [hs] at h; cases h
  · rw [hs] at h; cases h; exact .inl ⟨rfl, htop⟩
  · rw [hs] at h
    cases x with
    | notInScope => cases h; exact .inr (.inl ⟨rfl, hd⟩)
    | reservedBitSet => cases h; exact .inr (.inr (.inl ⟨rfl, hd⟩))
    | invalidForm => cases h
  · rw [hs] at h
    exact .inr (.inr (.inr ⟨i, hd, andThen_next_eq_refused.1 h⟩))

/-! ## Operands, completion, recording -/

/-- A misaligned operand has two, four or eight bytes, so no byte store has one (R103). -/
theorem operandSize_of_misaligned {m : Mnemonic} {a : Nat} (h : a % operandSize m ≠ 0) :
    operandSize m ∈ [2, 4, 8] ∧ m ≠ .stbsx ∧ m ≠ .stbsux := by
  cases m <;> simp [operandSize, Nat.mod_one] at h ⊢

/-- A valid instruction whose store is performed completes: the operand's bytes, RA of an update form, and `pc`
(R105, item 11). -/
theorem exec_completes_of_storeOk (hw : i.WellFormed) (hm : s.mem.wf = true)
    (ok : StoreOk s (operandAddress i s) (operandSize i.mnemonic)) : ∃ t, exec i s = .next t ∧
      WritesExactly s t (operandAddress i s) (operandSize i.mnemonic) (operandByte i s) ∧
      (∀ r, t.readGpr r = if i.mnemonic.isUpdate = true ∧ r = i.ra then operandAddress i s else s.readGpr r) ∧
      t.pc = s.pc + 4#64 ∧ SameRest s t :=
  ⟨stateAfter i s, exec_of_storeOk hw ok, writesExactly_stateAfter i hm ok, stateAfter_readGpr i s, stateAfter_pc i s,
    stateAfter_outcome i s, stateAfter_params i s⟩

theorem advance_of_running (h : s.outcome = .running) : advance s = record s (step s) := if_pos h

end

/-! ## The obligations -/

/-- Settles O32: the checks of `pc`, then the branches of the decoding procedure, then the checks of the store. -/
theorem stepChecksInOrder : Obligations.StepChecksInOrder := by
  intro s hrun hagent hdistinct hwf
  refine ⟨fun hend => step_of_atTextEnd hrun hagent (decide_eq_true hend), fun hend htop => ?_, ?_⟩
  · exact step_of_pcAtTop hrun hagent (decide_eq_false hend) (decide_eq_true (by rw [htop]; decide))
  rintro hfetch w rfl
  refine ⟨fun hnone => step_of_canFetch_reject hfetch (decode_of_no_mnemonic ?_), fun m hpo hxo => ?_⟩
  · rintro m ⟨hpo, hxo⟩
    exact hnone.elim (fun h => h hpo) (fun h => h m hxo.symm)
  have hlookup : xoLookup s.params.xo (fieldXO (fetchWord s)) = some m :=
    (congrArg _ hxo).trans (xoLookup_get hdistinct m)
  refine ⟨fun h31 => step_of_canFetch_reject hfetch (decode_of_reserved_bit hpo hlookup h31), fun h31 hu hra => ?_,
    fun h31 hvalid i hi => ?_⟩
  · exact step_of_canFetch_reject hfetch (decode_of_update_ra_zero hpo hlookup h31 hu (regOfBits_eq_zero.2 hra))
  · have hdecode : decode s.params.xo (fetchWord s) = .instr i := by
      rw [hi]; exact decode_of_valid_form hpo hlookup h31 hvalid
    have hw : i.WellFormed := wellFormed_of_decode hdecode
    have hstep : step s = exec i s := step_of_canFetch_instr hfetch hdecode
    obtain rfl : i.mnemonic = m := by rw [hi, mnemonic_instrOf]
    exact ⟨hstep, stopsInOrder_of_wellFormed hw, fun ok => hstep ▸ exec_completes_of_storeOk hw hwf ok⟩

/-- Settles O37: a stop comes from the check of `pc`, from the decoder, or from the checks of the decoded instruction's
store, each of which names its cause. -/
theorem stopsHaveTheirCauses : Obligations.StopsHaveTheirCauses := by
  intro s hrun hagent
  refine ⟨fun w p h => ?_, fun ea n p h => ?_, fun ea n p h => ?_, fun r h => ?_⟩
  · obtain ⟨hf, hd⟩ | ⟨i, -, hcheck⟩ := step_fault_cases hrun hagent h
    · cases hf
      exact ⟨rfl, rfl, rejectCause_of_decode hd⟩
    · obtain ⟨hf, -⟩ | ⟨hf, -⟩ := storeCheck_fault_cause hcheck <;> cases hf
  · obtain ⟨hf, -⟩ | ⟨i, hd, hcheck⟩ := step_fault_cases hrun hagent h
    · cases hf
    · obtain ⟨hf, -⟩ | ⟨hf, hadm⟩ := storeCheck_fault_cause hcheck <;> cases hf
      exact ⟨rfl, hadm, i, hd, rfl, rfl⟩
  · obtain ⟨hf, -⟩ | ⟨i, hd, hcheck⟩ := step_fault_cases hrun hagent h
    · cases hf
    · obtain ⟨hf, hz, hmis⟩ | ⟨hf, -⟩ := storeCheck_fault_cause hcheck <;> cases hf
      exact ⟨rfl, hz, hmis, i, hd, rfl, rfl⟩
  · obtain ⟨hr, htop⟩ | ⟨hr, hd⟩ | ⟨hr, hd⟩ | ⟨i, hd, hcheck⟩ := step_refused_cases hrun hagent h
    · exact .inr (.inr (.inl ⟨hr, htop⟩))
    · exact .inl ⟨hr, rejectCause_of_decode hd⟩
    · exact .inr (.inl ⟨hr, rejectCause_of_decode hd⟩)
    · refine .inr (.inr (.inr ⟨i, hd, ?_⟩))
      obtain hwrap | hmis | htext := storeCheck_refused_cause hcheck
      · exact .inl hwrap
      · exact .inr (.inr hmis)
      · exact .inr (.inl htext)

/-- Settles O38: the check of `Admit` is the only one that answers StorageFault, and every operand has one of the four
sizes. -/
theorem storageFaultExactlyWhenNotAdmitted : Obligations.StorageFaultExactlyWhenNotAdmitted := by
  intro i s
  refine ⟨fun hw hfit hz => ⟨fun h => ?_, fun hadm => ?_⟩, fun hall ea n p h => ?_⟩
  · obtain ⟨-, -, -, hadm⟩ := exec_storageFault_cause h
    exact hadm
  · exact exec_of_storeCheck_fault hw (storeCheck_of_not_admitted hfit hz hadm)
  · obtain ⟨-, rfl, -, hadm⟩ := exec_storageFault_cause h
    have hadmitted := hall ea _ (operandSize_mem i.mnemonic)
    simp [hadm] at hadmitted

/-- Settles O39: the check of the alignment is the only one that answers AlignmentFault, and no one-byte operand is
misaligned. -/
theorem alignmentFaultOnlyWhenAsked : Obligations.AlignmentFaultOnlyWhenAsked := by
  intro i s
  refine ⟨fun ea n p h => ?_, fun hw hfit hz hmis => ?_⟩
  · obtain ⟨hea, rfl, hp, hz, hmis⟩ := exec_alignmentFault_cause h
    obtain ⟨hsize, hbyte, hbyteUpdate⟩ := operandSize_of_misaligned hz
    exact ⟨hmis, hea, rfl, hsize, hz, hp, hbyte, hbyteUpdate⟩
  · exact exec_of_storeCheck_fault hw (storeCheck_of_misaligned_fault hfit hz hmis)

/-- Settles O40: a next state is running or exited, so a run recorded as stopped has the step's own stop, recorded in the
outcome alone. -/
theorem stopsArePreciseAndChangeNothing : Obligations.StopsArePreciseAndChangeNothing := by
  intro s hrun
  rw [advance_of_running hrun]
  cases hs : step s with
  | next t =>
    obtain ⟨-, hout⟩ := stepKeepsParameters s t hs
    have hopen (o : RunOutcome) (h : t.outcome = o) : o = .running ∨ o = .exited := h ▸ hout
    exact ⟨fun f h => absurd (hopen _ h) (by simp), fun r h => absurd (hopen _ h) (by simp)⟩
  | fault f =>
    refine ⟨fun _ h => ?_, nofun⟩
    cases h
    exact ⟨rfl, rfl⟩
  | refused r =>
    refine ⟨nofun, fun _ h => ?_⟩
    cases h
    exact ⟨rfl, rfl⟩

/-- Settles O31: the checks of `pc` pass and the decoder gives the instruction. -/
theorem stepRunsDecodedInstruction : Obligations.StepRunsDecodedInstruction :=
  fun _ _ hfetch hdecode => step_of_canFetch_instr hfetch hdecode

/-- Settles O35: the number of agents is looked at before every other check. -/
theorem secondAgentIsRefused : Obligations.SecondAgentIsRefused :=
  fun _ hrun hagents => step_of_otherAgents hrun hagents

end Sys2Proof.Machine

/-! PROOFS. Reset and launch (70_reset_and_hazards.md): what a launch state and a loaded word leave in storage, the premises
at reset, and that every run of a text ends. -/

namespace Sys2Proof.Machine

/-! ## Launch and load -/

/-- Outside the range written every byte stays. -/
theorem read_writeBytes_outside {m : Memory} {a x : Nat} {bs : List Byte} (hm : m.wf = true)
    (h : a + bs.length ≤ storageSize) (hx : x < a ∨ a + bs.length ≤ x) : (m.writeBytes a bs).read x = m.read x := by
  rw [read_writeBytes hm h, if_neg (by omega)]

/-- The text in storage ends at `textEnd`: four bytes for each word. -/
theorem textBase_add_length_textBytes (p : Params) :
    p.textBase.toNat + (textBytes p.bigEndian p.text).length = textEnd p := by
  rw [length_textBytes, textEnd]

/-- A launch state holds the text where it was loaded (R121 `TextInMem`). -/
theorem textInMem_launch {p : Params} {mem : Memory} (gpr : Vector Dword 32) (hm : mem.wf = true) (hfits : TextFits p) :
    TextInMem (launch p gpr mem) := by
  have hroom : p.textBase.toNat + (textBytes p.bigEndian p.text).length ≤ storageSize := by
    rw [textBase_add_length_textBytes]; omega
  have hread := readBytes_writeBytes hm hroom
  rwa [length_textBytes] at hread

/-- A launch state that fits has every byte outside the text as it was given. -/
theorem read_launch_outside {p : Params} {mem : Memory} {a : Nat} (gpr : Vector Dword 32) (hm : mem.wf = true)
    (hfits : TextFits p) (ha : a < p.textBase.toNat ∨ textEnd p ≤ a) : (launch p gpr mem).mem.read a = mem.read a := by
  have hend := textBase_add_length_textBytes p
  exact read_writeBytes_outside hm (by omega) (by omega)

/-- Loading a word at `pc` leaves every byte outside the word as it was. -/
theorem read_placeWord_outside {s : State} {a : Nat} (w : Word) (hm : s.mem.wf = true)
    (hpc : s.pc.toNat + 4 ≤ storageSize) (ha : a < s.pc.toNat ∨ s.pc.toNat + 4 ≤ a) :
    (placeWord s w).mem.read a = s.mem.read a :=
  read_writeBytes_outside hm (by rwa [length_storeBytes]) (by rwa [length_storeBytes])

/-! ## The launch premises and the invariant -/

/-- Over canonical storage the launch premises give the invariant: `pc` is the first word of the text, or its end. -/
theorem machineInv_of_launchPremises {s : State} (hwf : s.mem.wf = true) (h : LaunchPremises s) : MachineInv s := by
  obtain ⟨halign, hfits, htext, hrun, hagent, hxo, hpc⟩ := h
  refine ⟨hwf, halign, hfits, htext, hagent, hxo, ?_, ?_, ?_, by simp [hrun]⟩
  · rw [hpc]
  · rw [hpc]; exact Nat.le_add_right _ _
  · rw [hpc]; exact halign

/-- The launched machine's limits are R121's, and the empty text stands in any storage. -/
theorem launchPremises_reset : LaunchPremises State.reset := by
  obtain ⟨halign, hroom⟩ := config_textBase_limits
  have hend : textEnd State.reset.params = Config.textBase.toNat := rfl
  have hfits : TextFits State.reset.params := by rw [TextFits, hend]; omega
  exact ⟨halign, hfits, rfl, rfl, rfl, config_xo_distinct, rfl⟩

/-! ## One step of a run -/

/-- The run has ended in a fault or a refusal. -/
def Stopped (s : State) : Prop := (∃ f, s.outcome = .faulted f) ∨ ∃ r, s.outcome = .refused r

/-- The run of `p`'s text is `Running` at the text's word `j`, or at its end where the text has `j` words. -/
structure RunningAt (p : Params) (j : Nat) (s : State) : Prop where
  params : s.params = p
  running : s.outcome = .running
  pc : s.pc.toNat = p.textBase.toNat + 4 * j

section
variable {s : State} {p : Params} {j : Nat}

theorem Stopped.terminal (h : Stopped s) : Terminal s := by
  obtain ⟨f, hf⟩ | ⟨r, hr⟩ := h
  · simp [Terminal, hf]
  · simp [Terminal, hr]

/-- A step of a running state answers a next state, or its stop is recorded. -/
theorem advance_eq_next_or_stopped (hrun : s.outcome = .running) : step s = .next (advance s) ∨ Stopped (advance s) := by
  rw [advance_of_running hrun]
  cases step s with
  | next t => exact .inl rfl
  | fault f => exact .inr (.inl ⟨f, rfl⟩)
  | refused r => exact .inr (.inr ⟨r, rfl⟩)

/-- `pc + 4` does not wrap where the top of the address space is not reached (10_state.md rule R26). -/
theorem toNat_pc_add_four (h : pcAtTop s = false) : (s.pc + 4#64).toNat = s.pc.toNat + 4 := by
  have htop : ¬ storageSize ≤ s.pc.toNat + 4 := of_decide_eq_false h
  rw [BitVec.toNat_add]
  exact Nat.mod_eq_of_lt (not_le.1 htop)

/-- Short of the end of the text, a step goes on to the next word or stops. -/
theorem RunningAt.next_or_stopped (h : RunningAt p j s) (hj : j < p.text.length) :
    RunningAt p (j + 1) (advance s) ∨ Stopped (advance s) := by
  obtain ⟨rfl, hrun, hpc⟩ := h
  refine (advance_eq_next_or_stopped hrun).imp_left fun hs => ?_
  obtain ⟨-, -, ⟨hend, -⟩ | ⟨-, htop, i, -, hexec⟩⟩ := step_eq_next.1 hs
  · have hpcEnd : s.pc.toNat = textEnd s.params := of_decide_eq_true hend
    rw [textEnd] at hpcEnd
    omega
  · obtain ⟨hout, hparams⟩ := sameRest_of_exec_eq_next hexec
    obtain ⟨-, -, hafter⟩ := exec_eq_next.1 hexec
    refine ⟨hparams, hout.trans hrun, ?_⟩
    rw [hafter, stateAfter_pc, toNat_pc_add_four htop, hpc]
    omega

/-- At the end of the text the next step exits. -/
theorem RunningAt.advance_textEnd (h : RunningAt p p.text.length s) (hagent : SingleAgent p) :
    advance s = s.withOutcome .exited := by
  obtain ⟨rfl, hrun, hpc⟩ := h
  rw [advance_of_running hrun, step_of_atTextEnd hrun hagent (decide_eq_true hpc)]
  rfl

/-! ## The steps of a run -/

/-- The last of `k + 1` steps taken after the first `k`. -/
theorem runFor_succ (k : Nat) (s : State) : runFor (k + 1) s = advance (runFor k s) := by
  induction k generalizing s with
  | zero => rfl
  | succ k ih => exact ih (advance s)

/-- A run from the first word is at word `j` after `j` steps, or has stopped. -/
theorem runningAt_runFor (h : RunningAt p 0 s) (hj : j ≤ p.text.length) :
    RunningAt p j (runFor j s) ∨ Stopped (runFor j s) := by
  induction j with
  | zero => exact .inl h
  | succ j ih =>
    rw [runFor_succ]
    obtain hat | hstop := ih (by omega)
    · exact hat.next_or_stopped hj
    · rw [advance_of_terminal hstop.terminal]; exact .inr hstop

end

/-! ## The obligations -/

/-- Settles O44: the text's bytes are written in one go at `TEXT_BASE`, and each word is read back from its four. -/
theorem launchHoldsTheText : Obligations.LaunchHoldsTheText := by
  intro p gpr mem hwf hfits
  have htext : TextInMem (launch p gpr mem) := textInMem_launch gpr hwf hfits
  exact ⟨rfl, rfl, rfl, htext, fun _ ha => read_launch_outside gpr hwf hfits ha, fun _ hk => memRead_text htext hk⟩

/-- Settles O45: the host's load is `placeWord`, which writes the word's bytes and no register. -/
theorem loadedWordRuns : Obligations.LoadedWordRuns := by
  intro s w i hwf hagent hpc hdecode
  rw [withFetchWord_toNat]
  exact ⟨step_placeWord hwf hagent hpc hdecode, rfl, rfl, fun _ ha => read_placeWord_outside w hwf hpc.le ha⟩

/-- Settles O49: a run goes through its text word by word or stops on the way, and where it reached the end the next step
exits. -/
theorem everyRunEnds : Obligations.EveryRunEnds := by
  intro s hlaunch
  obtain ⟨-, -, -, hrun, hagent, -, hpc⟩ := hlaunch
  have hstart : RunningAt s.params 0 s := ⟨rfl, hrun, congrArg BitVec.toNat hpc⟩
  refine ⟨fun j hj => (runningAt_runFor hstart hj).imp_left fun hat => ⟨hat.running, hat.pc⟩, ?_⟩
  rw [runFor_succ]
  obtain hat | hstop := runningAt_runFor hstart le_rfl
  · rw [hat.advance_textEnd hagent]
    exact .inl ⟨rfl, hat.pc⟩
  · rw [advance_of_terminal hstop.terminal]
    exact .inr hstop

/-- Settles O33: the end of the text is looked at before storage is. -/
theorem stepExitsAtTextEnd : Obligations.StepExitsAtTextEnd :=
  fun _ _ hrun hagent hend => step_of_atTextEnd hrun hagent (decide_eq_true hend)

/-- Settles O43: the launch premises hold at reset and, its storage being empty, give the invariant. -/
theorem resetMeetsInvariant : Obligations.ResetMeetsInvariant :=
  ⟨launchPremises_reset, machineInv_of_launchPremises wf_nil launchPremises_reset⟩

end Sys2Proof.Machine
